-- ==== Sys2Proof/Word.lean ====
section
/-! DEFINITION. The two word types of the hardware: every data value is 8 bits and every address 16 bits,
all unsigned (spec 00_scope.md R6, R7; 40_step_and_addressing.md R112). -/

namespace Sys2Proof

/-- A data byte: `a`, `x`, `y`, `sp`, `p`, an opcode, an operand byte, a memory cell (R6, R7). -/
abbrev Byte := BitVec 8

/-- An address: `pc`, an effective address, a pointer (R6, R50). -/
abbrev Addr := BitVec 16

end Sys2Proof
end

