-- ==== Sys2Proof/Config.lean ====
section
/-! DEFINITION. The parameters of spec 00_scope.md R6 and of the table "Parameters left open" of
92_eei_decisions.md, with the value this hardware takes or the record in which the host supplies it.
`CATALOG` is the constant `Sys2Proof.catalog` of Decode.lean (log 3), `HALT` the record of
Machine/HostPort.lean. The spec leaves no value inside a Step open, so there is no opaque free value. -/

namespace Sys2Proof

/-- Number of byte cells, addresses 0 to 65535 (R6, R50). -/
def Config.memorySize : Nat := 65536

/-- High byte of every stack address: the stack page base is `0x0100` (R6, R22, R58). -/
def Config.stackPage : Byte := 0x01#8

/-- High byte of every address the ZeroPage mode forms (R58, R105). -/
def Config.zeroPage : Byte := 0x00#8

/-- The two memory backings (R53): a dense one is defined at every address, a sparse one only where it was
written or seeded. -/
inductive Backing where
  | sparse
  | dense
  deriving DecidableEq, Repr

/-- What an address that no cell is listed for reads as: nothing in a sparse backing, so that the read raises
`UnmappedAddress` (R51), and 0 in a dense one ("unwritten cells read as 0", R31, R53). -/
def Backing.unlisted : Backing → Option Byte
  | .sparse => none
  | .dense => some 0x00#8

/-- The launch registers `REG0` (R231); the field `s` is the stack pointer `sp`. -/
structure Reg0 where
  pc : Addr
  s : Byte
  a : Byte
  x : Byte
  y : Byte
  p : Byte
  deriving DecidableEq, Repr

/-- The launch registers of the spec's own examples, which `State.reset` takes.
DESIGN CHOICE, unsafe, log 1: the spec defines no reset value for any register (R35). -/
def Config.exampleReg0 : Reg0 :=
  { pc := 0x0200#16, s := 0xFD#8, a := 0x00#8, x := 0x00#8, y := 0x00#8, p := 0x24#8 }

/-- The backing `State.reset` takes. DESIGN CHOICE, unsafe, log 2: the spec leaves `MEM0` to the host (R35). -/
def Config.resetBacking : Backing := .dense

/-- A launch record (R231): the six registers, the backing, and the `[address, value]` pairs of `ram`. -/
structure Launch where
  regs : Reg0
  backing : Backing
  ram : List Host.Cell
  deriving DecidableEq, Repr

end Sys2Proof
end

