-- ==== Sys2Proof/Syntax.lean ====
section
/-! DEFINITION. The addressing modes and the instructions: one constructor per row of spec/opcode_table.json,
in the order of the table (30_encoding.md R81, R84). Operands are those of 30_encoding.md R83: an immediate byte,
a zero-page byte, a 16-bit address or pointer assembled low byte first. -/

namespace Sys2Proof

/-- The addressing modes, a closed set of five (R6, R81, R103 to R107). -/
inductive Mode where
  | implied
  | immediate
  | zeroPage
  | absolute
  | indirect
  deriving DecidableEq, Repr

/-- Length in bytes of an instruction of a mode (R81, R82). -/
def Mode.length : Mode → Nat
  | .implied => 1
  | .immediate => 2
  | .zeroPage => 2
  | .absolute => 3
  | .indirect => 3

/-- The 44 catalog instructions (R84). -/
inductive Instr where
  /-- `CLC`: clear Carry, Implied (R121). -/
  | clc
  /-- `SEC`: set Carry, Implied (R122). -/
  | sec
  /-- `CLI`: clear InterruptDisable, Implied (R123). -/
  | cli
  /-- `SEI`: set InterruptDisable, Implied (R124). -/
  | sei
  /-- `CLV`: clear Overflow, Implied (R125). -/
  | clv
  /-- `CLD`: clear Decimal, Implied (R126). -/
  | cld
  /-- `SED`: set Decimal, Implied (R127). -/
  | sed
  /-- `LDA #$nn`: load `a`, Immediate (R131). -/
  | ldaImm (imm : Byte)
  /-- `LDA $nn`: load `a`, ZeroPage (R132). -/
  | ldaZp (zp : Byte)
  /-- `LDA $nnnn`: load `a`, Absolute (R133). -/
  | ldaAbs (ea : Addr)
  /-- `LDX #$nn`: load `x`, Immediate (R134). -/
  | ldxImm (imm : Byte)
  /-- `LDX $nn`: load `x`, ZeroPage (R135). -/
  | ldxZp (zp : Byte)
  /-- `LDX $nnnn`: load `x`, Absolute (R136). -/
  | ldxAbs (ea : Addr)
  /-- `LDY #$nn`: load `y`, Immediate (R137). -/
  | ldyImm (imm : Byte)
  /-- `LDY $nn`: load `y`, ZeroPage (R138). -/
  | ldyZp (zp : Byte)
  /-- `LDY $nnnn`: load `y`, Absolute (R139). -/
  | ldyAbs (ea : Addr)
  /-- `STA $nn`: store `a`, ZeroPage (R141). -/
  | staZp (zp : Byte)
  /-- `STA $nnnn`: store `a`, Absolute (R142). -/
  | staAbs (ea : Addr)
  /-- `STX $nn`: store `x`, ZeroPage (R143). -/
  | stxZp (zp : Byte)
  /-- `STX $nnnn`: store `x`, Absolute (R144). -/
  | stxAbs (ea : Addr)
  /-- `STY $nn`: store `y`, ZeroPage (R145). -/
  | styZp (zp : Byte)
  /-- `STY $nnnn`: store `y`, Absolute (R146). -/
  | styAbs (ea : Addr)
  /-- `TAX`: copy `a` to `x`, Implied (R151). -/
  | tax
  /-- `TXA`: copy `x` to `a`, Implied (R152). -/
  | txa
  /-- `TAY`: copy `a` to `y`, Implied (R153). -/
  | tay
  /-- `TYA`: copy `y` to `a`, Implied (R154). -/
  | tya
  /-- `TSX`: copy `sp` to `x`, Implied (R155). -/
  | tsx
  /-- `TXS`: copy `x` to `sp`, no flags, Implied (R156). -/
  | txs
  /-- `INX`: add one to `x`, Implied (R161). -/
  | inx
  /-- `INY`: add one to `y`, Implied (R162). -/
  | iny
  /-- `DEX`: subtract one from `x`, Implied (R163). -/
  | dex
  /-- `DEY`: subtract one from `y`, Implied (R164). -/
  | dey
  /-- `DEC $nn`: subtract one from a memory cell, ZeroPage (R166). -/
  | decZp (zp : Byte)
  /-- `DEC $nnnn`: subtract one from a memory cell, Absolute (R167). -/
  | decAbs (ea : Addr)
  /-- `AND #$nn`: bitwise AND into `a`, Immediate (R171). -/
  | andImm (imm : Byte)
  /-- `AND $nn`: bitwise AND into `a`, ZeroPage (R172). -/
  | andZp (zp : Byte)
  /-- `AND $nnnn`: bitwise AND into `a`, Absolute (R173). -/
  | andAbs (ea : Addr)
  /-- `PHA`: push `a`, Implied (R176). -/
  | pha
  /-- `PHP`: push `p` with bit 4 set, Implied (R177). -/
  | php
  /-- `PLA`: pull `a`, Implied (R178). -/
  | pla
  /-- `PLP`: pull six bits of `p`, Implied (R179). -/
  | plp
  /-- `NOP`: no effect, Implied (R185). -/
  | nop
  /-- `JMP $nnnn`: jump, Absolute (R186). -/
  | jmpAbs (ea : Addr)
  /-- `JMP ($nnnn)`: jump, Indirect (R187). -/
  | jmpInd (ptr : Addr)
  deriving DecidableEq, Repr

/-- The addressing mode of each instruction (R84). -/
def Instr.mode : Instr → Mode
  | .clc => .implied
  | .sec => .implied
  | .cli => .implied
  | .sei => .implied
  | .clv => .implied
  | .cld => .implied
  | .sed => .implied
  | .ldaImm _ => .immediate
  | .ldaZp _ => .zeroPage
  | .ldaAbs _ => .absolute
  | .ldxImm _ => .immediate
  | .ldxZp _ => .zeroPage
  | .ldxAbs _ => .absolute
  | .ldyImm _ => .immediate
  | .ldyZp _ => .zeroPage
  | .ldyAbs _ => .absolute
  | .staZp _ => .zeroPage
  | .staAbs _ => .absolute
  | .stxZp _ => .zeroPage
  | .stxAbs _ => .absolute
  | .styZp _ => .zeroPage
  | .styAbs _ => .absolute
  | .tax => .implied
  | .txa => .implied
  | .tay => .implied
  | .tya => .implied
  | .tsx => .implied
  | .txs => .implied
  | .inx => .implied
  | .iny => .implied
  | .dex => .implied
  | .dey => .implied
  | .decZp _ => .zeroPage
  | .decAbs _ => .absolute
  | .andImm _ => .immediate
  | .andZp _ => .zeroPage
  | .andAbs _ => .absolute
  | .pha => .implied
  | .php => .implied
  | .pla => .implied
  | .plp => .implied
  | .nop => .implied
  | .jmpAbs _ => .absolute
  | .jmpInd _ => .indirect

/-- The length of an instruction in bytes: 1, 2 or 3 by its mode (R82). -/
def Instr.length (i : Instr) : Nat := i.mode.length

end Sys2Proof
end

