-- ==== Sys2Proof/WellFormed.lean ====
section
/-! DEFINITION. Well-formedness of what comes into the model from outside: instructions and launch records.
Every operand value of every instruction is legal (30_encoding.md R86) and the bounds of the operand fields
(8 and 16 bits) are carried by their types, so no instruction is ill-formed; the checks below that a term can
fail are those of a launch record (70_reset_and_hazards.md R231) and of a byte string given as ONE instruction
(`Sys2Proof.encodesOne` in Decode.lean, which needs the catalog). -/

namespace Sys2Proof

/-- Every instruction is well formed: "Operand bytes have no reserved values: every value 0 to 255 of `imm8`,
`zp8`, `lo8`, `hi8` is legal" (R86). -/
def Instr.wellFormed (_ : Instr) : Bool := true

/-- One pair of `ram` names a cell of the address space (R50, R231). -/
def cellInSpace (c : Host.Cell) : Bool := decide (c.1 < Config.memorySize)

/-- A launch record is well formed when every pair of `ram` names an address of the 65536 (R231). -/
def Launch.wellFormed (l : Launch) : Bool := l.ram.all cellInSpace

end Sys2Proof
end

