-- ==== Sys2Proof/Decode.lean ====
section
/-! DEFINITION. The catalog (30_encoding.md R84), the decoder, total on any list of bytes and rejecting by name,
and after it the encoder, written from R81 and R84 a second time, instruction by instruction. -/

namespace Sys2Proof

/-! ## Byte order -/

/-- `{h, l}`: the 16-bit value with high byte `h` and low byte `l` (R7, R55). -/
def joinBytes (h l : Byte) : Addr := h ++ l

/-- Bits 7:0 of a 16-bit value. -/
def lowByte (w : Addr) : Byte := w.extractLsb' 0 8

/-- Bits 15:8 of a 16-bit value. -/
def highByte (w : Addr) : Byte := w.extractLsb' 8 8

/-! ## The catalog -/

/-- The format of a catalog entry (R81) with the instruction it builds from its operand: nothing, the one operand
byte, or the two operand bytes joined low byte first (R83). -/
inductive Form where
  | implied (i : Instr)
  | immediate (build : Byte → Instr)
  | zeroPage (build : Byte → Instr)
  | absolute (build : Addr → Instr)
  | indirect (build : Addr → Instr)

/-- The addressing mode of a format (R81). -/
def Form.mode : Form → Mode
  | .implied _ => .implied
  | .immediate _ => .immediate
  | .zeroPage _ => .zeroPage
  | .absolute _ => .absolute
  | .indirect _ => .indirect

/-- A catalog entry: "opcode byte (0–255) to `{ mnemonic, addressing mode, cycle cost, effect }`" (R33, R80); the
effect is the meaning of the instruction the form builds. -/
structure Row where
  opcode : Byte
  mnemonic : String
  form : Form
  cycles : Nat

/-- Flag set and clear (R84, R121 to R127). -/
def flagRows : List Row :=
  [{ opcode := 0x18#8, mnemonic := "CLC", form := .implied .clc, cycles := 2 },
   { opcode := 0x38#8, mnemonic := "SEC", form := .implied .sec, cycles := 2 },
   { opcode := 0x58#8, mnemonic := "CLI", form := .implied .cli, cycles := 2 },
   { opcode := 0x78#8, mnemonic := "SEI", form := .implied .sei, cycles := 2 },
   { opcode := 0xB8#8, mnemonic := "CLV", form := .implied .clv, cycles := 2 },
   { opcode := 0xD8#8, mnemonic := "CLD", form := .implied .cld, cycles := 2 },
   { opcode := 0xF8#8, mnemonic := "SED", form := .implied .sed, cycles := 2 }]

/-- Loads (R84, R131 to R139). -/
def loadRows : List Row :=
  [{ opcode := 0xA9#8, mnemonic := "LDA", form := .immediate .ldaImm, cycles := 2 },
   { opcode := 0xA5#8, mnemonic := "LDA", form := .zeroPage .ldaZp, cycles := 3 },
   { opcode := 0xAD#8, mnemonic := "LDA", form := .absolute .ldaAbs, cycles := 4 },
   { opcode := 0xA2#8, mnemonic := "LDX", form := .immediate .ldxImm, cycles := 2 },
   { opcode := 0xA6#8, mnemonic := "LDX", form := .zeroPage .ldxZp, cycles := 3 },
   { opcode := 0xAE#8, mnemonic := "LDX", form := .absolute .ldxAbs, cycles := 4 },
   { opcode := 0xA0#8, mnemonic := "LDY", form := .immediate .ldyImm, cycles := 2 },
   { opcode := 0xA4#8, mnemonic := "LDY", form := .zeroPage .ldyZp, cycles := 3 },
   { opcode := 0xAC#8, mnemonic := "LDY", form := .absolute .ldyAbs, cycles := 4 }]

/-- Stores (R84, R141 to R146). -/
def storeRows : List Row :=
  [{ opcode := 0x85#8, mnemonic := "STA", form := .zeroPage .staZp, cycles := 3 },
   { opcode := 0x8D#8, mnemonic := "STA", form := .absolute .staAbs, cycles := 4 },
   { opcode := 0x86#8, mnemonic := "STX", form := .zeroPage .stxZp, cycles := 3 },
   { opcode := 0x8E#8, mnemonic := "STX", form := .absolute .stxAbs, cycles := 4 },
   { opcode := 0x84#8, mnemonic := "STY", form := .zeroPage .styZp, cycles := 3 },
   { opcode := 0x8C#8, mnemonic := "STY", form := .absolute .styAbs, cycles := 4 }]

/-- Register transfers (R84, R151 to R156). -/
def transferRows : List Row :=
  [{ opcode := 0xAA#8, mnemonic := "TAX", form := .implied .tax, cycles := 2 },
   { opcode := 0x8A#8, mnemonic := "TXA", form := .implied .txa, cycles := 2 },
   { opcode := 0xA8#8, mnemonic := "TAY", form := .implied .tay, cycles := 2 },
   { opcode := 0x98#8, mnemonic := "TYA", form := .implied .tya, cycles := 2 },
   { opcode := 0xBA#8, mnemonic := "TSX", form := .implied .tsx, cycles := 2 },
   { opcode := 0x9A#8, mnemonic := "TXS", form := .implied .txs, cycles := 2 }]

/-- Increment and decrement (R84, R161 to R167). -/
def incDecRows : List Row :=
  [{ opcode := 0xE8#8, mnemonic := "INX", form := .implied .inx, cycles := 2 },
   { opcode := 0xC8#8, mnemonic := "INY", form := .implied .iny, cycles := 2 },
   { opcode := 0xCA#8, mnemonic := "DEX", form := .implied .dex, cycles := 2 },
   { opcode := 0x88#8, mnemonic := "DEY", form := .implied .dey, cycles := 2 },
   { opcode := 0xC6#8, mnemonic := "DEC", form := .zeroPage .decZp, cycles := 5 },
   { opcode := 0xCE#8, mnemonic := "DEC", form := .absolute .decAbs, cycles := 6 }]

/-- Logical (R84, R171 to R173). -/
def logicalRows : List Row :=
  [{ opcode := 0x29#8, mnemonic := "AND", form := .immediate .andImm, cycles := 2 },
   { opcode := 0x25#8, mnemonic := "AND", form := .zeroPage .andZp, cycles := 3 },
   { opcode := 0x2D#8, mnemonic := "AND", form := .absolute .andAbs, cycles := 4 }]

/-- Stack (R84, R176 to R179). -/
def stackRows : List Row :=
  [{ opcode := 0x48#8, mnemonic := "PHA", form := .implied .pha, cycles := 3 },
   { opcode := 0x08#8, mnemonic := "PHP", form := .implied .php, cycles := 3 },
   { opcode := 0x68#8, mnemonic := "PLA", form := .implied .pla, cycles := 4 },
   { opcode := 0x28#8, mnemonic := "PLP", form := .implied .plp, cycles := 4 }]

/-- No-op and jumps (R84, R185 to R187). -/
def nopJumpRows : List Row :=
  [{ opcode := 0xEA#8, mnemonic := "NOP", form := .implied .nop, cycles := 2 },
   { opcode := 0x4C#8, mnemonic := "JMP", form := .absolute .jmpAbs, cycles := 3 },
   { opcode := 0x6C#8, mnemonic := "JMP", form := .indirect .jmpInd, cycles := 5 }]

/-- The catalog: the 44 rows of R84, costs as in R239. PRESUMED by the spec itself for 41 opcode bytes, log 3. -/
def catalog : List Row :=
  flagRows ++ loadRows ++ storeRows ++ transferRows ++ incDecRows ++ logicalRows ++ stackRows ++ nopJumpRows

/-- Decode is a lookup of the whole opcode byte in the catalog, reading nothing else (R80, R102). -/
def lookupOpcode (b : Byte) : Option Row := catalog.find? (fun r => r.opcode == b)

/-! ## The decoder -/

/-- Why a byte string is no instruction. -/
inductive DecodeError where
  /-- There is no byte to decode. -/
  | noBytes
  /-- The opcode byte is one of the 212 with no catalog entry (R85). -/
  | illegalOpcode (b : Byte)
  /-- The opcode `b` is in the catalog and fewer bytes follow than its format has (R81). -/
  | missingOperand (b : Byte)
  deriving DecidableEq, Repr

/-- The answer of the decoder: an instruction and the bytes after it, or a rejection by name. -/
inductive Decoded where
  | instr (i : Instr) (rest : List Byte)
  | rejected (why : DecodeError)
  deriving DecidableEq, Repr

/-- The operand bytes of a format, in ascending address order, low byte first (R81, R83). -/
def decodeOperand (opcode : Byte) (f : Form) (bytes : List Byte) : Decoded :=
  match f, bytes with
  | .implied i, rest => .instr i rest
  | .immediate k, b :: rest => .instr (k b) rest
  | .zeroPage k, b :: rest => .instr (k b) rest
  | .absolute k, lo :: hi :: rest => .instr (k (joinBytes hi lo)) rest
  | .indirect k, lo :: hi :: rest => .instr (k (joinBytes hi lo)) rest
  | _, _ => .rejected (.missingOperand opcode)

/-- Decode the first instruction of a byte string (R80 to R85). -/
def decode : List Byte → Decoded
  | [] => .rejected .noBytes
  | b :: rest =>
    match lookupOpcode b with
    | none => .rejected (.illegalOpcode b)
    | some r => decodeOperand b r.form rest

/-- A byte string is exactly one catalog instruction: a legal opcode and neither too few nor too many bytes. -/
def encodesOne (bytes : List Byte) : Bool :=
  match decode bytes with
  | .instr _ rest => rest.isEmpty
  | .rejected _ => false

/-! ## The encoder -/

/-- The opcode byte of each instruction (R84). -/
def Instr.opcode : Instr → Byte
  | .clc => 0x18#8
  | .sec => 0x38#8
  | .cli => 0x58#8
  | .sei => 0x78#8
  | .clv => 0xB8#8
  | .cld => 0xD8#8
  | .sed => 0xF8#8
  | .ldaImm _ => 0xA9#8
  | .ldaZp _ => 0xA5#8
  | .ldaAbs _ => 0xAD#8
  | .ldxImm _ => 0xA2#8
  | .ldxZp _ => 0xA6#8
  | .ldxAbs _ => 0xAE#8
  | .ldyImm _ => 0xA0#8
  | .ldyZp _ => 0xA4#8
  | .ldyAbs _ => 0xAC#8
  | .staZp _ => 0x85#8
  | .staAbs _ => 0x8D#8
  | .stxZp _ => 0x86#8
  | .stxAbs _ => 0x8E#8
  | .styZp _ => 0x84#8
  | .styAbs _ => 0x8C#8
  | .tax => 0xAA#8
  | .txa => 0x8A#8
  | .tay => 0xA8#8
  | .tya => 0x98#8
  | .tsx => 0xBA#8
  | .txs => 0x9A#8
  | .inx => 0xE8#8
  | .iny => 0xC8#8
  | .dex => 0xCA#8
  | .dey => 0x88#8
  | .decZp _ => 0xC6#8
  | .decAbs _ => 0xCE#8
  | .andImm _ => 0x29#8
  | .andZp _ => 0x25#8
  | .andAbs _ => 0x2D#8
  | .pha => 0x48#8
  | .php => 0x08#8
  | .pla => 0x68#8
  | .plp => 0x28#8
  | .nop => 0xEA#8
  | .jmpAbs _ => 0x4C#8
  | .jmpInd _ => 0x6C#8

/-- The operand bytes of each instruction in ascending address order (R81). -/
def Instr.operandBytes : Instr → List Byte
  | .clc => []
  | .sec => []
  | .cli => []
  | .sei => []
  | .clv => []
  | .cld => []
  | .sed => []
  | .ldaImm imm => [imm]
  | .ldaZp zp => [zp]
  | .ldaAbs ea => [lowByte ea, highByte ea]
  | .ldxImm imm => [imm]
  | .ldxZp zp => [zp]
  | .ldxAbs ea => [lowByte ea, highByte ea]
  | .ldyImm imm => [imm]
  | .ldyZp zp => [zp]
  | .ldyAbs ea => [lowByte ea, highByte ea]
  | .staZp zp => [zp]
  | .staAbs ea => [lowByte ea, highByte ea]
  | .stxZp zp => [zp]
  | .stxAbs ea => [lowByte ea, highByte ea]
  | .styZp zp => [zp]
  | .styAbs ea => [lowByte ea, highByte ea]
  | .tax => []
  | .txa => []
  | .tay => []
  | .tya => []
  | .tsx => []
  | .txs => []
  | .inx => []
  | .iny => []
  | .dex => []
  | .dey => []
  | .decZp zp => [zp]
  | .decAbs ea => [lowByte ea, highByte ea]
  | .andImm imm => [imm]
  | .andZp zp => [zp]
  | .andAbs ea => [lowByte ea, highByte ea]
  | .pha => []
  | .php => []
  | .pla => []
  | .plp => []
  | .nop => []
  | .jmpAbs ea => [lowByte ea, highByte ea]
  | .jmpInd ptr => [lowByte ptr, highByte ptr]

/-- The bytes of an instruction as they stand in memory, lowest address first (R80, R81). -/
def encode (i : Instr) : List Byte := i.opcode :: i.operandBytes

/-! ## The opcode table's numbering -/

/-- The first three bytes of a table word whose bit 0 is the least significant bit of the first byte; the bits from
`nbits` on are 0. Three bytes is the longest instruction (R80). -/
def tableBytes (nbits w : Nat) : List Byte :=
  let v := w % 2 ^ nbits
  [BitVec.ofNat 8 v, BitVec.ofNat 8 (v / 256), BitVec.ofNat 8 (v / 65536)]

/-- The instruction the decoder reads from a word of spec/opcode_table.json, none where it rejects the word. -/
def decodeTableWord (nbits w : Nat) : Option Instr :=
  match decode (tableBytes nbits w) with
  | .instr i _ => some i
  | .rejected _ => none

end Sys2Proof
end

