-- ==== Sys2Proof/Machine/State.lean ====
section
/-! DEFINITION. The state of the machine (10_state.md R20: eight items "and nothing else"), the two faults, the
refusals, and the state after reset. Everything here is plain data. -/

namespace Sys2Proof.Machine

/-- The memory the block masters: a partial map from the 65536 addresses to bytes (R31, R50), held as the listed cells
and the backing, which says what an unlisted address reads as (`Backing.unlisted`). -/
structure Memory where
  backing : Backing
  cells : List Host.Cell
  deriving DecidableEq, Repr

/-- The addresses of a cell list rise strictly from `lo` on. -/
def risingFrom : Nat → List Host.Cell → Bool
  | _, [] => true
  | lo, c :: rest => decide (lo ≤ c.1) && risingFrom (c.1 + 1) rest

/-- A cell of a canonical memory: inside the address space, and not what an unlisted address reads as. -/
def canonicalCell (b : Backing) (c : Host.Cell) : Bool :=
  decide (c.1 < Config.memorySize) && decide (b.unlisted ≠ some c.2)

/-- The canonical form: addresses strictly rising, all in the address space, no cell equal to what an unlisted
address reads as. Under one backing, equal memories are then equal data. -/
def Memory.wf (m : Memory) : Bool := risingFrom 0 m.cells && m.cells.all (canonicalCell m.backing)

/-- The whole state (R20): program counter, stack pointer, accumulator, index registers, status register, memory,
cycle counter. -/
structure State where
  pc : Addr
  sp : Byte
  a : Byte
  x : Byte
  y : Byte
  p : Byte
  mem : Memory
  clk : Nat
  deriving DecidableEq, Repr

/-- The two exceptional conditions, "the complete list" (R200). Both are raised by the machine itself, exactly where
the spec raises them. -/
inductive Fault where
  /-- A read of a cell that holds no value, with the address of that read (R201). Raised by opcode and operand fetches,
  by the data reads of LDA, LDX, LDY, AND and DEC, by the stack reads of PLA and PLP and by the pointer reads of
  JMP (indirect), under a sparse backing only. Safe: it is the spec's own fault. -/
  | unmappedAddress (addr : Addr)
  /-- The opcode byte has no catalog entry, with the byte and the address it was fetched from (R202). Raised by the
  decode of a Step. Safe: it is the spec's own fault. -/
  | illegalOpcode (opcode : Byte) (pc0 : Addr)
  deriving DecidableEq, Repr

/-- Why the model itself would stop. No meaning of this model refuses anything. -/
inductive Refusal where
  /-- An instruction with no meaning yet, raised by an arm of `exec`. No arm raises it: all 44 have a meaning. Safe. -/
  | notModelled (mnemonic : String)
  deriving DecidableEq, Repr

/-- The three outcomes of a step of this machine. -/
abbrev Result := Host.Outcome State Fault Refusal

/-- The state a launch leaves before any seed is written: the given registers, no cell listed, `clk` 0 (R231). -/
def State.fresh (r : Reg0) (b : Backing) : State :=
  { pc := r.pc, sp := r.s, a := r.a, x := r.x, y := r.y, p := r.p, mem := { backing := b, cells := [] }, clk := 0 }

/-- The state after reset. The spec states `clk = 0` (R30, R35); registers and memory are the host's at launch (R35),
so their values here are DESIGN CHOICE, unsafe: log 1 (the registers of the spec's own examples) and log 2 (a dense
backing with nothing written). -/
def State.reset : State := State.fresh Config.exampleReg0 Config.resetBacking

end Sys2Proof.Machine
end

