-- ==== Sys2Proof/Machine/Ops.lean ====
section
/-! DEFINITION. The named operations over memory and registers, the completion of an instruction, and the delivery of a
fault. Every meaning is built from these. -/

namespace Sys2Proof.Machine

/-! ## Cell lists -/

/-- The byte listed for an address, if one is. -/
def cellAt (k : Nat) : List Host.Cell → Option Byte
  | [] => none
  | c :: rest => if c.1 = k then some c.2 else cellAt k rest

/-- List the byte `v` for the address `k`, in rising order, in place of any byte listed for it before. -/
def insertCell (k : Nat) (v : Byte) : List Host.Cell → List Host.Cell
  | [] => [(k, v)]
  | c :: rest =>
    if k < c.1 then (k, v) :: c :: rest
    else if c.1 = k then (k, v) :: rest
    else c :: insertCell k v rest

/-- List nothing for the address `k`. -/
def eraseCell (k : Nat) : List Host.Cell → List Host.Cell
  | [] => []
  | c :: rest => if c.1 = k then eraseCell k rest else c :: eraseCell k rest

/-! ## The two memory primitives -/

/-- `MemRead(addr, 1)`: the byte at `addr`, or nothing where the cell is undefined (R51). It has no side effect. -/
def Memory.read (m : Memory) (addr : Addr) : Option Byte :=
  match cellAt addr.toNat m.cells with
  | some v => some v
  | none => m.backing.unlisted

/-- `MemWrite(addr, 1, v)`: defines the cell `addr` and changes no other (R52). It keeps the canonical form: the value
an unlisted address reads as is not listed. -/
def Memory.write (m : Memory) (addr : Addr) (v : Byte) : Memory :=
  if m.backing.unlisted = some v then { m with cells := eraseCell addr.toNat m.cells }
  else { m with cells := insertCell addr.toNat v m.cells }

/-- The bytes `bs` stand at `addr`, `addr + 1`, … modulo 65536 (R80). -/
def Memory.holds (m : Memory) (addr : Addr) : List Byte → Bool
  | [] => true
  | b :: rest => decide (m.read addr = some b) && m.holds (addr + 1#16) rest

/-- Write the bytes `bs` at `addr`, `addr + 1`, … modulo 65536, in that order. -/
def Memory.writeBytes (m : Memory) (addr : Addr) : List Byte → Memory
  | [] => m
  | b :: rest => (m.write addr b).writeBytes (addr + 1#16) rest

/-! ## Registers

Each register has one home; none is hard-wired, banked or aliased (R20, R21), so a write stores all bits given. -/

def State.setPc (s : State) (v : Addr) : State := { s with pc := v }
def State.setSp (s : State) (v : Byte) : State := { s with sp := v }
def State.setP (s : State) (v : Byte) : State := { s with p := v }
def State.setMem (s : State) (m : Memory) : State := { s with mem := m }

/-- The 8-bit registers an instruction can name as source or destination (R21, R22). -/
inductive Reg where
  | a
  | x
  | y
  | sp
  deriving DecidableEq, Repr

/-- Read an 8-bit register; every register always holds a value (R36). -/
def State.readReg (s : State) : Reg → Byte
  | .a => s.a
  | .x => s.x
  | .y => s.y
  | .sp => s.sp

/-- Write an 8-bit register. -/
def State.writeReg (s : State) (r : Reg) (v : Byte) : State :=
  match r with
  | .a => { s with a := v }
  | .x => { s with x := v }
  | .y => { s with y := v }
  | .sp => s.setSp v

/-! ## Ends of an instruction -/

/-- The end of an instruction that completes: `clk` is charged the catalog cost, once (R109), and the Step answers
`Done` (R100). -/
def complete (cycles : Nat) (s : State) : Result := .next { s with clk := s.clk + cycles }

/-- Taking an exception on this hardware: the Step answers `Fault(E)` to the host. "The block saves nothing, changes
nothing and goes nowhere" (R206): no saved register, no mode, no vector, no handler, hence no return either (R208). The
outcome carries no state, so whatever a meaning had worked out before the fault is discarded (R108). -/
def takeFault (f : Fault) : Result := .fault f

/-- `MemRead` inside an instruction: go on with the byte, or raise `UnmappedAddress(addr)` (R51). -/
def withRead (s : State) (addr : Addr) (k : Byte → Result) : Result :=
  match s.mem.read addr with
  | some v => k v
  | none => takeFault (.unmappedAddress addr)

/-- `MemWrite` inside an instruction; it never fails (R52). -/
def State.store (s : State) (addr : Addr) (v : Byte) : State := s.setMem (s.mem.write addr v)

end Sys2Proof.Machine
end

