-- ==== Sys2Proof/Machine/Flags.lean ====
section
/-! DEFINITION. The status register: its named bits (10_state.md R24) and every flag computation of the spec
(R26, R111 (e) to (g), R120). `p` is one byte that software pushes and pulls whole, so it stays a bit vector. -/

namespace Sys2Proof.Machine

/-- The eight bits of `p`, each a plain storage bit (R24). `ignored` is the spec's letter G. -/
inductive Flag where
  | carry
  | zero
  | interruptDisable
  | decimal
  | break_
  | ignored
  | overflow
  | negative
  deriving DecidableEq, Repr

/-- The place of each flag in `p` (R24). -/
def Flag.bit : Flag → Nat
  | .carry => 0
  | .zero => 1
  | .interruptDisable => 2
  | .decimal => 3
  | .break_ => 4
  | .ignored => 5
  | .overflow => 6
  | .negative => 7

/-- The mask of each flag (R24). -/
def Flag.mask (f : Flag) : Byte := 1#8 <<< f.bit

/-- The value of a flag in a status byte. -/
def flagOf (p : Byte) (f : Flag) : Bool := p.getLsbD f.bit

/-- `p <- p | mask` (R120). -/
def setFlag (p : Byte) (f : Flag) : Byte := p ||| f.mask

/-- `p <- p & ~mask` (R120). -/
def clearFlag (p : Byte) (f : Flag) : Byte := p &&& ~~~f.mask

/-- The Zero/Negative logic as a function on the byte `p`, in R26's own formula:
`(p & 0x7D) | (0x02 if v == 0 else 0) | (v & 0x80)`. -/
def nz (p v : Byte) : Byte := (p &&& 0x7D#8) ||| (if v = 0#8 then 0x02#8 else 0x00#8) ||| (v &&& 0x80#8)

/-- `or10`: the byte `PHP` pushes, bit 4 forced to 1 in the copy (R111 (e), R177). -/
def or10 (p : Byte) : Byte := p ||| 0x10#8

/-- `merge`: the new `p` of `PLP`, bits 5 and 4 of `p` kept and the other six from the pulled byte (R111 (f), R179). -/
def mergePulled (p m : Byte) : Byte := (p &&& 0x30#8) ||| (m &&& 0xCF#8)

/-- `nz(v)` applied to the live `p`: Zero and Negative overwritten from `v`, no other bit (R26). -/
def State.applyNz (s : State) (v : Byte) : State := s.setP (nz s.p v)

end Sys2Proof.Machine
end

