-- ==== Sys2Proof/Machine/Operands.lean ====
section
/-! DEFINITION. The addressing-mode arithmetic (40_step_and_addressing.md R103 to R107, R115; 20_memory.md R59, R67)
and the 8-bit ALU (R111). No mode is indexed; nothing is sign-extended, scaled or shifted (R83). -/

namespace Sys2Proof.Machine

/-! ## Addresses -/

/-- The address after `pc`, modulo 65536 (R101). -/
def nextPc (pc : Addr) : Addr := pc + 1#16

/-- ZeroPage: the operand byte zero-extended, `{0x00, b}` (R105). -/
def zeroPageAddr (b : Byte) : Addr := joinBytes Config.zeroPage b

/-- The stack cell `sp` designates, `{0x01, sp}`, with no carry into the high byte (R59). -/
def stackAddr (sp : Byte) : Addr := joinBytes Config.stackPage sp

/-- The address of the high target byte of `JMP (indirect)`: `{ptr[15:8], (ptr[7:0] + 1) mod 256}`, the page-boundary
bug included (R187). -/
def pointerHighAddr (ptr : Addr) : Addr := joinBytes (highByte ptr) (lowByte ptr + 1#8)

/-! ## The ALU -/

/-- `and8(u, v)` (R111 (b)). -/
def and8 (u v : Byte) : Byte := u &&& v

/-- `inc8(v) = (v + 1) mod 256` (R111 (c)). -/
def inc8 (v : Byte) : Byte := v + 1#8

/-- `dec8(v) = (v - 1) mod 256` (R111 (d)). -/
def dec8 (v : Byte) : Byte := v - 1#8

/-! ## Operand values -/

/-- Where an instruction's 8-bit operand comes from: the instruction itself, or the cell at the effective address. -/
inductive Operand where
  | imm (v : Byte)
  | cell (ea : Addr)
  deriving DecidableEq, Repr

/-- `operand <- imm` for Immediate and `operand <- MemRead(ea, 1)` for ZeroPage and Absolute (R115). -/
def withOperand (s : State) (o : Operand) (k : Byte → Result) : Result :=
  match o with
  | .imm v => k v
  | .cell ea => withRead s ea k

/-! ## Effects shared by a family -/

/-- Write a data register and set Zero and Negative from the value written (R21, R26), then complete. -/
def writeRegNz (r : Reg) (v : Byte) (cycles : Nat) (s : State) : Result :=
  complete cycles ((s.writeReg r v).applyNz v)

/-- A load: operand into register, Zero and Negative from it (R130). -/
def loadInto (r : Reg) (o : Operand) (cycles : Nat) (s : State) : Result :=
  withOperand s o fun v => writeRegNz r v cycles s

/-- A store: register to the effective address, nothing else (R140). -/
def storeFrom (r : Reg) (ea : Addr) (cycles : Nat) (s : State) : Result :=
  complete cycles (s.store ea (s.readReg r))

/-- `AND`: `a <- a & operand`, Zero and Negative from the new `a` (R170). -/
def andInto (o : Operand) (cycles : Nat) (s : State) : Result :=
  withOperand s o fun v => writeRegNz .a (and8 s.a v) cycles s

/-- `DEC`: read the cell, subtract one, write it back, Zero and Negative from the byte written (R165). -/
def decrementCell (ea : Addr) (cycles : Nat) (s : State) : Result :=
  withRead s ea fun v => complete cycles ((s.store ea (dec8 v)).applyNz (dec8 v))

/-- A push: write at `0x0100 + sp`, then `sp - 1` modulo 256 (R175). -/
def push (v : Byte) (cycles : Nat) (s : State) : Result :=
  complete cycles ((s.store (stackAddr s.sp) v).setSp (dec8 s.sp))

/-- A pull: `sp + 1` modulo 256, then read at `0x0100 + sp` (R175); `k` gets the byte and the state with the new `sp`,
which a fault of the read discards (R108). -/
def pull (s : State) (k : Byte → State → Result) : Result :=
  let s1 := s.setSp (inc8 s.sp)
  withRead s1 (stackAddr s1.sp) fun v => k v s1

/-- Set one flag and complete (R120). -/
def flagSet (f : Flag) (cycles : Nat) (s : State) : Result := complete cycles (s.setP (setFlag s.p f))

/-- Clear one flag and complete (R120). -/
def flagClear (f : Flag) (cycles : Nat) (s : State) : Result := complete cycles (s.setP (clearFlag s.p f))

end Sys2Proof.Machine
end

