-- ==== Sys2Proof/Machine/FlagSetClear.lean ====
section
/-! DEFINITION. CLC SEC CLI SEI CLV CLD SED (41_flag_set_clear.md). Each writes one bit of `p`, costs 2 cycles and
touches nothing else (R120). The `pc` was advanced by the opcode fetch. -/

namespace Sys2Proof.Machine

/-- CLC: `p.C <- 0` (R121). -/
def execClc (s : State) : Result := flagClear .carry 2 s

/-- SEC: `p.C <- 1` (R122). -/
def execSec (s : State) : Result := flagSet .carry 2 s

/-- CLI: `p.I <- 0`; no interrupt exists, so it enables nothing (R123, R29). -/
def execCli (s : State) : Result := flagClear .interruptDisable 2 s

/-- SEI: `p.I <- 1` (R124, R29). -/
def execSei (s : State) : Result := flagSet .interruptDisable 2 s

/-- CLV: `p.V <- 0` (R125). -/
def execClv (s : State) : Result := flagClear .overflow 2 s

/-- CLD: `p.D <- 0` (R126). -/
def execCld (s : State) : Result := flagClear .decimal 2 s

/-- SED: `p.D <- 1`; no instruction consults it (R127, R29). -/
def execSed (s : State) : Result := flagSet .decimal 2 s

end Sys2Proof.Machine
end

