-- ==== Sys2Proof/Machine/IncDec.lean ====
section
/-! DEFINITION. INX INY DEX DEY DEC (44_inc_dec.md). Plus or minus one modulo 256; Zero and Negative from the new value;
Carry and Overflow are not written (R160, R165). -/

namespace Sys2Proof.Machine

/-- INX: `x <- inc8(x)` (R161). -/
def execInx (s : State) : Result := writeRegNz .x (inc8 (s.readReg .x)) 2 s

/-- INY: `y <- inc8(y)` (R162). -/
def execIny (s : State) : Result := writeRegNz .y (inc8 (s.readReg .y)) 2 s

/-- DEX: `x <- dec8(x)` (R163). -/
def execDex (s : State) : Result := writeRegNz .x (dec8 (s.readReg .x)) 2 s

/-- DEY: `y <- dec8(y)` (R164). -/
def execDey (s : State) : Result := writeRegNz .y (dec8 (s.readReg .y)) 2 s

/-- DEC zero page (R166). -/
def execDecZp (zp : Byte) (s : State) : Result := decrementCell (zeroPageAddr zp) 5 s

/-- DEC absolute (R167). -/
def execDecAbs (ea : Addr) (s : State) : Result := decrementCell ea 6 s

end Sys2Proof.Machine
end

