-- ==== Sys2Proof/Machine/LoadStore.lean ====
section
/-! DEFINITION. LDA LDX LDY STA STX STY (42_load_store.md). A load replaces one register and sets Zero and Negative
from the loaded byte (R130); a store writes one register to one cell and touches no flag (R140). -/

namespace Sys2Proof.Machine

/-- LDA immediate (R131). -/
def execLdaImm (imm : Byte) (s : State) : Result := loadInto .a (.imm imm) 2 s

/-- LDA zero page (R132). -/
def execLdaZp (zp : Byte) (s : State) : Result := loadInto .a (.cell (zeroPageAddr zp)) 3 s

/-- LDA absolute (R133). -/
def execLdaAbs (ea : Addr) (s : State) : Result := loadInto .a (.cell ea) 4 s

/-- LDX immediate (R134). -/
def execLdxImm (imm : Byte) (s : State) : Result := loadInto .x (.imm imm) 2 s

/-- LDX zero page (R135). -/
def execLdxZp (zp : Byte) (s : State) : Result := loadInto .x (.cell (zeroPageAddr zp)) 3 s

/-- LDX absolute (R136). -/
def execLdxAbs (ea : Addr) (s : State) : Result := loadInto .x (.cell ea) 4 s

/-- LDY immediate (R137). -/
def execLdyImm (imm : Byte) (s : State) : Result := loadInto .y (.imm imm) 2 s

/-- LDY zero page (R138). -/
def execLdyZp (zp : Byte) (s : State) : Result := loadInto .y (.cell (zeroPageAddr zp)) 3 s

/-- LDY absolute (R139). -/
def execLdyAbs (ea : Addr) (s : State) : Result := loadInto .y (.cell ea) 4 s

/-- STA zero page (R141). -/
def execStaZp (zp : Byte) (s : State) : Result := storeFrom .a (zeroPageAddr zp) 3 s

/-- STA absolute (R142). -/
def execStaAbs (ea : Addr) (s : State) : Result := storeFrom .a ea 4 s

/-- STX zero page (R143). -/
def execStxZp (zp : Byte) (s : State) : Result := storeFrom .x (zeroPageAddr zp) 3 s

/-- STX absolute (R144). -/
def execStxAbs (ea : Addr) (s : State) : Result := storeFrom .x ea 4 s

/-- STY zero page (R145). -/
def execStyZp (zp : Byte) (s : State) : Result := storeFrom .y (zeroPageAddr zp) 3 s

/-- STY absolute (R146). -/
def execStyAbs (ea : Addr) (s : State) : Result := storeFrom .y ea 4 s

end Sys2Proof.Machine
end

