-- ==== Sys2Proof/Machine/Logical.lean ====
section
/-! DEFINITION. AND, the one logical instruction, in three modes (45_logical.md, R170). -/

namespace Sys2Proof.Machine

/-- AND immediate (R171). -/
def execAndImm (imm : Byte) (s : State) : Result := andInto (.imm imm) 2 s

/-- AND zero page (R172). -/
def execAndZp (zp : Byte) (s : State) : Result := andInto (.cell (zeroPageAddr zp)) 3 s

/-- AND absolute (R173). -/
def execAndAbs (ea : Addr) (s : State) : Result := andInto (.cell ea) 4 s

end Sys2Proof.Machine
end

