-- ==== Sys2Proof/Machine/NopJump.lean ====
section
/-! DEFINITION. NOP and the two forms of JMP, the only control transfers (47_nop_jump.md, R188). -/

namespace Sys2Proof.Machine

/-- NOP: no effect but the opcode fetch and the charge (R185). -/
def execNop (s : State) : Result := complete 2 s

/-- JMP absolute: `pc` takes the operand; the target is not read (R186). -/
def execJmpAbs (ea : Addr) (s : State) : Result := complete 3 (s.setPc ea)

/-- JMP indirect: the target's low byte is read at `ptr`, then its high byte at `{ptr[15:8], (ptr[7:0] + 1) mod 256}`,
which stays in the pointer's page (R187). -/
def execJmpInd (ptr : Addr) (s : State) : Result :=
  withRead s ptr fun tlo => withRead s (pointerHighAddr ptr) fun thi => complete 5 (s.setPc (joinBytes thi tlo))

end Sys2Proof.Machine
end

