-- ==== Sys2Proof/Machine/Stack.lean ====
section
/-! DEFINITION. PHA PHP PLA PLP (46_stack.md): a push writes and then decrements `sp`, a pull increments `sp` and then
reads, always inside `0x0100` to `0x01FF` (R175). -/

namespace Sys2Proof.Machine

/-- PHA: push `a`; no flag (R176). -/
def execPha (s : State) : Result := push s.a 3 s

/-- PHP: push `p | 0x10`; the live `p` is unchanged (R177). -/
def execPhp (s : State) : Result := push (or10 s.p) 3 s

/-- PLA: pull `a`, Zero and Negative from it (R178). -/
def execPla (s : State) : Result := pull s fun v s1 => writeRegNz .a v 4 s1

/-- PLP: pull a byte and take its bits 7, 6, 3, 2, 1, 0 into `p`; bits 5 and 4 of `p` stay (R179). -/
def execPlp (s : State) : Result := pull s fun m s1 => complete 4 (s1.setP (mergePulled s1.p m))

end Sys2Proof.Machine
end

