-- ==== Sys2Proof/Machine/Transfer.lean ====
section
/-! DEFINITION. TAX TXA TAY TYA TSX TXS (43_transfer.md). Five of the six set Zero and Negative from the value copied;
TXS touches no flag (R150). -/

namespace Sys2Proof.Machine

/-- TAX: `x <- a` (R151). -/
def execTax (s : State) : Result := writeRegNz .x (s.readReg .a) 2 s

/-- TXA: `a <- x` (R152). -/
def execTxa (s : State) : Result := writeRegNz .a (s.readReg .x) 2 s

/-- TAY: `y <- a` (R153). -/
def execTay (s : State) : Result := writeRegNz .y (s.readReg .a) 2 s

/-- TYA: `a <- y` (R154). -/
def execTya (s : State) : Result := writeRegNz .a (s.readReg .y) 2 s

/-- TSX: `x <- sp` (R155). -/
def execTsx (s : State) : Result := writeRegNz .x (s.readReg .sp) 2 s

/-- TXS: `sp <- x`, and `p` is unchanged whatever the value (R156). -/
def execTxs (s : State) : Result := complete 2 (s.writeReg .sp (s.readReg .x))

end Sys2Proof.Machine
end

