-- ==== Sys2Proof/Machine/Dispatch.lean ====
section
/-! DEFINITION. The dispatch: one arm per instruction, each one call of its meaning. -/

namespace Sys2Proof.Machine

def exec (i : Instr) (s : State) : Host.Outcome State Fault Refusal :=
  match i with
  | .clc => Sys2Proof.Machine.execClc s
  | .sec => Sys2Proof.Machine.execSec s
  | .cli => Sys2Proof.Machine.execCli s
  | .sei => Sys2Proof.Machine.execSei s
  | .clv => Sys2Proof.Machine.execClv s
  | .cld => Sys2Proof.Machine.execCld s
  | .sed => Sys2Proof.Machine.execSed s
  | .ldaImm imm => Sys2Proof.Machine.execLdaImm imm s
  | .ldaZp zp => Sys2Proof.Machine.execLdaZp zp s
  | .ldaAbs ea => Sys2Proof.Machine.execLdaAbs ea s
  | .ldxImm imm => Sys2Proof.Machine.execLdxImm imm s
  | .ldxZp zp => Sys2Proof.Machine.execLdxZp zp s
  | .ldxAbs ea => Sys2Proof.Machine.execLdxAbs ea s
  | .ldyImm imm => Sys2Proof.Machine.execLdyImm imm s
  | .ldyZp zp => Sys2Proof.Machine.execLdyZp zp s
  | .ldyAbs ea => Sys2Proof.Machine.execLdyAbs ea s
  | .staZp zp => Sys2Proof.Machine.execStaZp zp s
  | .staAbs ea => Sys2Proof.Machine.execStaAbs ea s
  | .stxZp zp => Sys2Proof.Machine.execStxZp zp s
  | .stxAbs ea => Sys2Proof.Machine.execStxAbs ea s
  | .styZp zp => Sys2Proof.Machine.execStyZp zp s
  | .styAbs ea => Sys2Proof.Machine.execStyAbs ea s
  | .tax => Sys2Proof.Machine.execTax s
  | .txa => Sys2Proof.Machine.execTxa s
  | .tay => Sys2Proof.Machine.execTay s
  | .tya => Sys2Proof.Machine.execTya s
  | .tsx => Sys2Proof.Machine.execTsx s
  | .txs => Sys2Proof.Machine.execTxs s
  | .inx => Sys2Proof.Machine.execInx s
  | .iny => Sys2Proof.Machine.execIny s
  | .dex => Sys2Proof.Machine.execDex s
  | .dey => Sys2Proof.Machine.execDey s
  | .decZp zp => Sys2Proof.Machine.execDecZp zp s
  | .decAbs ea => Sys2Proof.Machine.execDecAbs ea s
  | .andImm imm => Sys2Proof.Machine.execAndImm imm s
  | .andZp zp => Sys2Proof.Machine.execAndZp zp s
  | .andAbs ea => Sys2Proof.Machine.execAndAbs ea s
  | .pha => Sys2Proof.Machine.execPha s
  | .php => Sys2Proof.Machine.execPhp s
  | .pla => Sys2Proof.Machine.execPla s
  | .plp => Sys2Proof.Machine.execPlp s
  | .nop => Sys2Proof.Machine.execNop s
  | .jmpAbs ea => Sys2Proof.Machine.execJmpAbs ea s
  | .jmpInd ptr => Sys2Proof.Machine.execJmpInd ptr s

end Sys2Proof.Machine
end

