-- ==== Sys2Proof/Machine/Fetch.lean ====
section
/-! DEFINITION. Fetch, decode and addressing-mode resolution (40_step_and_addressing.md R100 to R107): the part of a Step
before the instruction's own effect. -/

namespace Sys2Proof.Machine

/-- `Fetch()`: read at `pc`, then `pc + 1` modulo 65536; the only way the instruction stream is read (R101). -/
def fetchByte (s : State) : Except Fault (Byte × State) :=
  match s.mem.read s.pc with
  | some b => .ok (b, s.setPc (nextPc s.pc))
  | none => .error (.unmappedAddress s.pc)

/-- Two fetches, low byte first, joined (R106, R107). -/
def fetchWord (s : State) : Except Fault (Addr × State) :=
  match fetchByte s with
  | .error f => .error f
  | .ok (lo, s1) =>
    match fetchByte s1 with
    | .error f => .error f
    | .ok (hi, s2) => .ok (joinBytes hi lo, s2)

/-- `Resolve(mode)`: fetch the operand bytes of a format and build the instruction; it writes `pc` only (R103 to R107). -/
def resolve (f : Form) (s : State) : Except Fault (Instr × State) :=
  match f with
  | .implied i => .ok (i, s)
  | .immediate k =>
    match fetchByte s with
    | .error f => .error f
    | .ok (b, s1) => .ok (k b, s1)
  | .zeroPage k =>
    match fetchByte s with
    | .error f => .error f
    | .ok (b, s1) => .ok (k b, s1)
  | .absolute k =>
    match fetchWord s with
    | .error f => .error f
    | .ok (w, s1) => .ok (k w, s1)
  | .indirect k =>
    match fetchWord s with
    | .error f => .error f
    | .ok (w, s1) => .ok (k w, s1)

/-- The opcode fetch, the catalog lookup, which raises `IllegalOpcode(opcode, pc0)` before any operand is fetched (R102,
R202), and the operand fetches. -/
def fetchInstr (s : State) : Except Fault (Instr × State) :=
  match fetchByte s with
  | .error f => .error f
  | .ok (opcode, s1) =>
    match lookupOpcode opcode with
    | none => .error (.illegalOpcode opcode s.pc)
    | some r => resolve r.form s1

/-- Put a table word where the next instruction is fetched: its bytes at `pc`, `pc + 1`, `pc + 2` modulo 65536. -/
def placeWord (s : State) (nbits w : Nat) : State := s.setMem (s.mem.writeBytes s.pc (tableBytes nbits w))

end Sys2Proof.Machine
end

