-- ==== Sys2Proof/Machine/Step.lean ====
section
/-! DEFINITION. Step (40_step_and_addressing.md R100): fetch, decode, resolve, execute; and the word the host places to
be fetched next. -/

namespace Sys2Proof.Machine

/-- One Step: the fetched instruction runs at the state whose `pc` stands past its bytes; a fault of any part is the
answer, and the state before the Step is what the host still holds (R108). -/
def step (s : State) : Host.Outcome State Fault Refusal :=
  match fetchInstr s with
  | .ok (i, s1) => exec i s1
  | .error f => takeFault f

/-- `s` with a table word stored where `step` fetches its next instruction. A program comes to run because the host
writes it to memory and sets `pc` (log 4). -/
def State.withFetchWord (s : State) (nbits w : Nat) : State := placeWord s nbits w

end Sys2Proof.Machine
end

