-- ==== Sys2Proof/Machine/Bus.lean ====
section
/-! DEFINITION. The memory transactions of a Step, their order and number, written a second time from the table of
20_memory.md R66: "exactly those listed here, in this order, and no others". `step` does not use this file; the
statements say that the two agree. -/

namespace Sys2Proof.Machine

/-- One transaction on the memory master port (R5, R51, R52). -/
inductive Access where
  | read (addr : Addr)
  | write (addr : Addr) (v : Byte)
  deriving DecidableEq, Repr

/-- A read, and what follows it with the byte read; nothing follows a read of an undefined cell (R205). -/
def readThen (m : Memory) (addr : Addr) (k : Byte → List Access) : List Access :=
  .read addr ::
    match m.read addr with
    | some v => k v
    | none => []

/-- The transactions of an instruction's own effect, after all its fetches (R66). -/
def effectAccesses (i : Instr) (s : State) : List Access :=
  match i with
  | .clc => []
  | .sec => []
  | .cli => []
  | .sei => []
  | .clv => []
  | .cld => []
  | .sed => []
  | .ldaImm _ => []
  | .ldaZp zp => [.read (zeroPageAddr zp)]
  | .ldaAbs ea => [.read ea]
  | .ldxImm _ => []
  | .ldxZp zp => [.read (zeroPageAddr zp)]
  | .ldxAbs ea => [.read ea]
  | .ldyImm _ => []
  | .ldyZp zp => [.read (zeroPageAddr zp)]
  | .ldyAbs ea => [.read ea]
  | .staZp zp => [.write (zeroPageAddr zp) s.a]
  | .staAbs ea => [.write ea s.a]
  | .stxZp zp => [.write (zeroPageAddr zp) s.x]
  | .stxAbs ea => [.write ea s.x]
  | .styZp zp => [.write (zeroPageAddr zp) s.y]
  | .styAbs ea => [.write ea s.y]
  | .tax => []
  | .txa => []
  | .tay => []
  | .tya => []
  | .tsx => []
  | .txs => []
  | .inx => []
  | .iny => []
  | .dex => []
  | .dey => []
  | .decZp zp => readThen s.mem (zeroPageAddr zp) fun v => [.write (zeroPageAddr zp) (dec8 v)]
  | .decAbs ea => readThen s.mem ea fun v => [.write ea (dec8 v)]
  | .andImm _ => []
  | .andZp zp => [.read (zeroPageAddr zp)]
  | .andAbs ea => [.read ea]
  | .pha => [.write (stackAddr s.sp) s.a]
  | .php => [.write (stackAddr s.sp) (or10 s.p)]
  | .pla => [.read (stackAddr (inc8 s.sp))]
  | .plp => [.read (stackAddr (inc8 s.sp))]
  | .nop => []
  | .jmpAbs _ => []
  | .jmpInd ptr => readThen s.mem ptr fun _ => [.read (pointerHighAddr ptr)]

/-- The operand fetches of a format, then the effect (R66, R81). -/
def formAccesses (f : Form) (s : State) : List Access :=
  let at1 := nextPc s.pc
  let at2 := nextPc at1
  match f with
  | .implied i => effectAccesses i s
  | .immediate k => readThen s.mem at1 fun b => effectAccesses (k b) s
  | .zeroPage k => readThen s.mem at1 fun b => effectAccesses (k b) s
  | .absolute k =>
    readThen s.mem at1 fun lo => readThen s.mem at2 fun hi => effectAccesses (k (joinBytes hi lo)) s
  | .indirect k =>
    readThen s.mem at1 fun lo => readThen s.mem at2 fun hi => effectAccesses (k (joinBytes hi lo)) s

/-- All transactions of the Step that starts in `s`, in order, the faulting read included if there is one. -/
def stepAccesses (s : State) : List Access :=
  readThen s.mem s.pc fun opcode =>
    match lookupOpcode opcode with
    | none => []
    | some r => formAccesses r.form s

/-- The memory after the writes of a list of transactions (R61). -/
def Memory.replay (m : Memory) : List Access → Memory
  | [] => m
  | .read _ :: rest => m.replay rest
  | .write addr v :: rest => (m.write addr v).replay rest

end Sys2Proof.Machine
end

