-- ==== Sys2Proof/Machine/HostPort.lean ====
section
/-! DEFINITION. The host's side of the boundary (70_reset_and_hazards.md R231, R234, R242): launch, the writes it may make
between Steps, the Step transaction with the state it leaves, and the run loop with its policy `HALT`. -/

namespace Sys2Proof.Machine

/-- Write the pairs of `ram` in list order, so that a later pair for one address wins (R231, D4). -/
def seedCells (s : State) : List Host.Cell → State
  | [] => s
  | c :: rest => seedCells (s.store (BitVec.ofNat 16 c.1) c.2) rest

/-- Launch: every register as supplied, the listed cells, `clk` 0 (R231); no launch from a record that names a cell
outside the address space. -/
def launch (l : Launch) : Option State :=
  if l.wellFormed then some (seedCells (State.fresh l.regs l.backing) l.ram) else none

/-- What the host may write between Steps: every register and every cell, but not `clk` (R34, R242). It cannot undefine
a cell (R242). -/
inductive HostWrite where
  | pc (v : Addr)
  | reg (r : Reg) (v : Byte)
  | p (v : Byte)
  | cell (addr : Addr) (v : Byte)
  deriving DecidableEq, Repr

/-- A host write between Steps (R242). -/
def State.hostWrite (s : State) : HostWrite → State
  | .pc v => s.setPc v
  | .reg r v => s.writeReg r v
  | .p v => s.setP v
  | .cell addr v => s.store addr v

/-- The answers of a Step (R100). `refused` is the model's own and never given. -/
inductive Answer where
  | done
  | fault (f : Fault)
  | refused (r : Refusal)
  deriving DecidableEq, Repr

/-- The Step transaction as the host sees it: the answer and the state afterwards, which a fault leaves as it was
(R100, R108). -/
def stepTransaction (s : State) : Answer × State :=
  match step s with
  | .next t => (.done, t)
  | .fault f => (.fault f, s)
  | .refused r => (.refused r, s)

/-- The state holds the registers of `final` and, at every address of `final.ram`, the value listed there; `clk` and
cells not listed are not compared (R231). DESIGN CHOICE, safe, log 10: a pair outside the address space never agrees, and
where `ram` lists an address twice every pair must agree. -/
def State.agreesWith (s : State) (regs : Reg0) (ram : List Host.Cell) : Bool :=
  decide (({ pc := s.pc, s := s.sp, a := s.a, x := s.x, y := s.y, p := s.p } : Reg0) = regs) &&
    ram.all fun c => cellInSpace c && decide (s.mem.read (BitVec.ofNat 16 c.1) = some c.2)

/-- The conformance test of R231: launch from `initial`, one Step, and the comparison of the state it leaves with
`final`, of which the backing is not used. DESIGN CHOICE, safe, log 10: a Step that faults is compared too, with the
state it leaves, which is the launched one, and its answer is not looked at; an `initial` that launches nothing does
not conform. -/
def conforms (initial final : Launch) : Bool :=
  match launch initial with
  | none => false
  | some s => (stepTransaction s).2.agreesWith final.regs final.ram

/-- Why a run ended (R234). -/
inductive RunEnd where
  | budgetSpent
  | reachedPc
  | faulted (f : Fault)
  | refused (r : Refusal)
  deriving DecidableEq, Repr

/-- The host's run loop under the policies R234 asks for: a step budget, stop at the first fault, and, where `stopPc`
gives one, stop when `pc` reaches that address, looked at before each Step (DESIGN CHOICE, safe, log 5). -/
def runUntil (stopPc : Option Addr) : Nat → State → RunEnd × State
  | 0, s => (.budgetSpent, s)
  | n + 1, s =>
    if stopPc = some s.pc then (.reachedPc, s)
    else
      match step s with
      | .next t => runUntil stopPc n t
      | .fault f => (.faulted f, s)
      | .refused r => (.refused r, s)

end Sys2Proof.Machine
end

