-- ==== Sys2Proof/Safety.lean ====
section
/-! DEFINITION. What counts as a safe run, the model's invariant, and the words the statements are written in: tables of
the spec transcribed a second time (which register, which flag, which cell an instruction may write, what it costs) and
the shape of an instruction rule. `step` and `exec` use none of this. -/

namespace Sys2Proof.Machine

/-! ## Safe runs -/

/-- A safe run: `n` Steps from `s`, every one answering `Done` (R100, R200). -/
def safeFor : Nat → State → Bool
  | 0, _ => true
  | n + 1, s =>
    match step s with
    | .next t => safeFor n t
    | .fault _ => false
    | .refused _ => false

/-- The invariant of the model: the memory is in canonical form. The spec constrains no register (R24, R36). -/
def State.inv (s : State) : Bool := s.mem.wf

/-! ## Tables of the spec -/

/-- The 8-bit registers an instruction writes (table of R21, R22). -/
def regsWritten : Instr → List Reg
  | .clc => []
  | .sec => []
  | .cli => []
  | .sei => []
  | .clv => []
  | .cld => []
  | .sed => []
  | .ldaImm _ => [.a]
  | .ldaZp _ => [.a]
  | .ldaAbs _ => [.a]
  | .ldxImm _ => [.x]
  | .ldxZp _ => [.x]
  | .ldxAbs _ => [.x]
  | .ldyImm _ => [.y]
  | .ldyZp _ => [.y]
  | .ldyAbs _ => [.y]
  | .staZp _ => []
  | .staAbs _ => []
  | .stxZp _ => []
  | .stxAbs _ => []
  | .styZp _ => []
  | .styAbs _ => []
  | .tax => [.x]
  | .txa => [.a]
  | .tay => [.y]
  | .tya => [.a]
  | .tsx => [.x]
  | .txs => [.sp]
  | .inx => [.x]
  | .iny => [.y]
  | .dex => [.x]
  | .dey => [.y]
  | .decZp _ => []
  | .decAbs _ => []
  | .andImm _ => [.a]
  | .andZp _ => [.a]
  | .andAbs _ => [.a]
  | .pha => [.sp]
  | .php => [.sp]
  | .pla => [.a, .sp]
  | .plp => [.sp]
  | .nop => []
  | .jmpAbs _ => []
  | .jmpInd _ => []

/-- The flags an instruction writes (R24, R25, R27). -/
def flagsWritten : Instr → List Flag
  | .clc => [.carry]
  | .sec => [.carry]
  | .cli => [.interruptDisable]
  | .sei => [.interruptDisable]
  | .clv => [.overflow]
  | .cld => [.decimal]
  | .sed => [.decimal]
  | .ldaImm _ => [.zero, .negative]
  | .ldaZp _ => [.zero, .negative]
  | .ldaAbs _ => [.zero, .negative]
  | .ldxImm _ => [.zero, .negative]
  | .ldxZp _ => [.zero, .negative]
  | .ldxAbs _ => [.zero, .negative]
  | .ldyImm _ => [.zero, .negative]
  | .ldyZp _ => [.zero, .negative]
  | .ldyAbs _ => [.zero, .negative]
  | .staZp _ => []
  | .staAbs _ => []
  | .stxZp _ => []
  | .stxAbs _ => []
  | .styZp _ => []
  | .styAbs _ => []
  | .tax => [.zero, .negative]
  | .txa => [.zero, .negative]
  | .tay => [.zero, .negative]
  | .tya => [.zero, .negative]
  | .tsx => [.zero, .negative]
  | .txs => []
  | .inx => [.zero, .negative]
  | .iny => [.zero, .negative]
  | .dex => [.zero, .negative]
  | .dey => [.zero, .negative]
  | .decZp _ => [.zero, .negative]
  | .decAbs _ => [.zero, .negative]
  | .andImm _ => [.zero, .negative]
  | .andZp _ => [.zero, .negative]
  | .andAbs _ => [.zero, .negative]
  | .pha => []
  | .php => []
  | .pla => [.zero, .negative]
  | .plp => [.carry, .zero, .interruptDisable, .decimal, .overflow, .negative]
  | .nop => []
  | .jmpAbs _ => []
  | .jmpInd _ => []

/-- The cell an instruction stores to and the byte it stores there (R66): the address by the function its meaning uses,
applied to the state its meaning starts in. -/
def storeOf (i : Instr) (s : State) : Option (Addr × Byte) :=
  match i with
  | .clc => none
  | .sec => none
  | .cli => none
  | .sei => none
  | .clv => none
  | .cld => none
  | .sed => none
  | .ldaImm _ => none
  | .ldaZp _ => none
  | .ldaAbs _ => none
  | .ldxImm _ => none
  | .ldxZp _ => none
  | .ldxAbs _ => none
  | .ldyImm _ => none
  | .ldyZp _ => none
  | .ldyAbs _ => none
  | .staZp zp => some (zeroPageAddr zp, s.a)
  | .staAbs ea => some (ea, s.a)
  | .stxZp zp => some (zeroPageAddr zp, s.x)
  | .stxAbs ea => some (ea, s.x)
  | .styZp zp => some (zeroPageAddr zp, s.y)
  | .styAbs ea => some (ea, s.y)
  | .tax => none
  | .txa => none
  | .tay => none
  | .tya => none
  | .tsx => none
  | .txs => none
  | .inx => none
  | .iny => none
  | .dex => none
  | .dey => none
  | .decZp zp => (s.mem.read (zeroPageAddr zp)).map fun v => (zeroPageAddr zp, dec8 v)
  | .decAbs ea => (s.mem.read ea).map fun v => (ea, dec8 v)
  | .andImm _ => none
  | .andZp _ => none
  | .andAbs _ => none
  | .pha => some (stackAddr s.sp, s.a)
  | .php => some (stackAddr s.sp, or10 s.p)
  | .pla => none
  | .plp => none
  | .nop => none
  | .jmpAbs _ => none
  | .jmpInd _ => none

/-- The two instructions that write `pc` themselves (R188). -/
def isJump : Instr → Bool
  | .clc => false
  | .sec => false
  | .cli => false
  | .sei => false
  | .clv => false
  | .cld => false
  | .sed => false
  | .ldaImm _ => false
  | .ldaZp _ => false
  | .ldaAbs _ => false
  | .ldxImm _ => false
  | .ldxZp _ => false
  | .ldxAbs _ => false
  | .ldyImm _ => false
  | .ldyZp _ => false
  | .ldyAbs _ => false
  | .staZp _ => false
  | .staAbs _ => false
  | .stxZp _ => false
  | .stxAbs _ => false
  | .styZp _ => false
  | .styAbs _ => false
  | .tax => false
  | .txa => false
  | .tay => false
  | .tya => false
  | .tsx => false
  | .txs => false
  | .inx => false
  | .iny => false
  | .dex => false
  | .dey => false
  | .decZp _ => false
  | .decAbs _ => false
  | .andImm _ => false
  | .andZp _ => false
  | .andAbs _ => false
  | .pha => false
  | .php => false
  | .pla => false
  | .plp => false
  | .nop => false
  | .jmpAbs _ => true
  | .jmpInd _ => true

/-- The cycle cost of each instruction, by the rows of R239. -/
def costOf : Instr → Nat
  | .clc | .sec | .cli | .sei | .clv | .cld | .sed | .tax | .txa | .tay | .tya | .tsx | .txs | .inx | .iny
  | .dex | .dey | .nop => 2
  | .ldaImm _ | .ldxImm _ | .ldyImm _ | .andImm _ => 2
  | .ldaZp _ | .ldxZp _ | .ldyZp _ | .andZp _ => 3
  | .ldaAbs _ | .ldxAbs _ | .ldyAbs _ | .andAbs _ => 4
  | .staZp _ | .stxZp _ | .styZp _ => 3
  | .staAbs _ | .stxAbs _ | .styAbs _ => 4
  | .decZp _ => 5
  | .decAbs _ => 6
  | .pha | .php => 3
  | .pla | .plp => 4
  | .jmpAbs _ => 3
  | .jmpInd _ => 5

/-! ## Shapes of a rule -/

/-- `p'` is `p` with Zero set exactly when `v` is 0, Negative equal to bit 7 of `v`, and the other six bits kept (R26). -/
def NzResult (p v p' : Byte) : Prop :=
  ∀ k < 8, p'.getLsbD k = if k = 1 then decide (v = 0#8) else if k = 7 then v.getLsbD 7 else p.getLsbD k

/-- The instruction `i` completes from every state, writes bit `k` of `p` to `v` and changes nothing else but `clk`,
which it charges 2 (R120). -/
def WritesOneFlag (i : Instr) (k : Nat) (v : Bool) : Prop :=
  ∀ s : State, ∃ p', exec i s = .next { s with p := p', clk := s.clk + 2 } ∧
    ∀ j < 8, p'.getLsbD j = if j = k then v else s.p.getLsbD j

/-- `m'` is `m` with the cell `ea` holding `v`, every other address reading as before (R52). -/
def CellWritten (m m' : Memory) (ea : Addr) (v : Byte) : Prop :=
  m'.read ea = some v ∧ ∀ b, b ≠ ea → m'.read b = m.read b

/-- A whole instruction rule of format IMP: the fault of the opcode fetch, and the effect of the Step when the byte at
`pc` is `op`, on the state whose `pc` stands past it. -/
def ImpliedRule (op : Byte) (effect : State → Result) : Prop :=
  ∀ s : State,
    (s.mem.read s.pc = none → step s = .fault (.unmappedAddress s.pc)) ∧
    (s.mem.read s.pc = some op → step s = effect { s with pc := s.pc + 1#16 })

/-- A whole instruction rule of format IMM or ZP: the two fetches, each with its fault, and the effect with the operand
byte. -/
def ByteRule (op : Byte) (effect : Byte → State → Result) : Prop :=
  ∀ s : State,
    (s.mem.read s.pc = none → step s = .fault (.unmappedAddress s.pc)) ∧
    (s.mem.read s.pc = some op → s.mem.read (s.pc + 1#16) = none →
      step s = .fault (.unmappedAddress (s.pc + 1#16))) ∧
    (∀ b, s.mem.read s.pc = some op → s.mem.read (s.pc + 1#16) = some b →
      step s = effect b { s with pc := s.pc + 2#16 })

/-- A whole instruction rule of format ABS or IND: the three fetches in address order, each with its fault, and the
effect with the 16-bit operand, low byte first. -/
def WordRule (op : Byte) (effect : Addr → State → Result) : Prop :=
  ∀ s : State,
    (s.mem.read s.pc = none → step s = .fault (.unmappedAddress s.pc)) ∧
    (s.mem.read s.pc = some op → s.mem.read (s.pc + 1#16) = none →
      step s = .fault (.unmappedAddress (s.pc + 1#16))) ∧
    (∀ lo, s.mem.read s.pc = some op → s.mem.read (s.pc + 1#16) = some lo → s.mem.read (s.pc + 2#16) = none →
      step s = .fault (.unmappedAddress (s.pc + 2#16))) ∧
    (∀ lo hi : Byte, s.mem.read s.pc = some op → s.mem.read (s.pc + 1#16) = some lo →
      s.mem.read (s.pc + 2#16) = some hi → step s = effect (hi ++ lo) { s with pc := s.pc + 3#16 })

/-- The data read of a rule: the effect with the byte read at `ea`, or the fault that names `ea` (R51). -/
def readRule (s : State) (ea : Addr) (effect : Byte → State) : Result :=
  match s.mem.read ea with
  | some v => .next (effect v)
  | none => .fault (.unmappedAddress ea)

end Sys2Proof.Machine
end

