-- ==== Sys2Proof/Certificates/Slice0/Obligations.lean ====
section
/-! DEFINITION. The statements for the provers, one definition each; OBLIGATIONS.json lists them. -/

open Sys2Proof Sys2Proof.Machine

/-- Nine byte strings taken from the encoding table of R84, one of each family and each format, with operands, decode
to their instruction with nothing left over. The opcode bytes are those of the spec's decision D1
(notes/assumptions/3.md). (30_encoding.md R81, 30_encoding.md R83, 30_encoding.md R84) -/
def Obligations.SpecEncodingsDecodeToTheirInstruction : Prop :=
  decode [0x18#8] = .instr .clc [] ∧
  decode [0xA9#8, 0x80#8] = .instr (.ldaImm 0x80#8) [] ∧
  decode [0xA6#8, 0xFF#8] = .instr (.ldxZp 0xFF#8) [] ∧
  decode [0x8C#8, 0xFD#8, 0x01#8] = .instr (.styAbs 0x01FD#16) [] ∧
  decode [0xBA#8] = .instr .tsx [] ∧
  decode [0xCE#8, 0x00#8, 0x03#8] = .instr (.decAbs 0x0300#16) [] ∧
  decode [0x29#8, 0x3C#8] = .instr (.andImm 0x3C#8) [] ∧
  decode [0x28#8] = .instr .plp [] ∧
  decode [0x6C#8, 0xFF#8, 0x30#8] = .instr (.jmpInd 0x30FF#16) []

/-- For every instruction with every operand and every byte string after it, decode of the encoding followed by that
string is the instruction and that string. The opcode bytes are those of the spec's decision D1
(notes/assumptions/3.md). (30_encoding.md R80, 30_encoding.md R81, 30_encoding.md R83, 30_encoding.md R84) -/
def Obligations.DecodeInvertsEncode : Prop :=
  ∀ (i : Instr) (rest : List Byte), decode (encode i ++ rest) = .instr i rest

/-- Whenever decode of a byte string gives an instruction and a rest, the byte string is the encoding of that
instruction followed by that rest: every encoding has one meaning and every instruction one encoding. The opcode
bytes are those of the spec's decision D1 (notes/assumptions/3.md). (30_encoding.md R80, 30_encoding.md R81,
30_encoding.md R83, 30_encoding.md R84) -/
def Obligations.EncodeInvertsDecode : Prop :=
  ∀ (bytes rest : List Byte) (i : Instr), decode bytes = .instr i rest → bytes = encode i ++ rest

/-- Decode answers illegalOpcode b exactly when the first byte is b and no instruction has the opcode b; it answers
missingOperand b exactly when the first byte b is the opcode of an instruction that needs more operand bytes than
follow; it answers noBytes exactly on the empty string. The opcode bytes are those of the spec's decision D1
(notes/assumptions/3.md). (30_encoding.md R82, 30_encoding.md R85, 40_step_and_addressing.md R102) -/
def Obligations.DecodeRejectsIllegalAndTruncatedByName : Prop :=
  ∀ (bytes : List Byte) (b : Byte),
    (decode bytes = .rejected (.illegalOpcode b) ↔ ∃ rest, bytes = b :: rest ∧ ∀ i : Instr, i.opcode ≠ b) ∧
    (decode bytes = .rejected (.missingOperand b) ↔
      ∃ (rest : List Byte) (i : Instr), bytes = b :: rest ∧ i.opcode = b ∧ rest.length < i.operandBytes.length) ∧
    (decode bytes = .rejected .noBytes ↔ bytes = [])

/-- If a byte string decodes to the instruction i with nothing left over and stands in memory at pc (addresses modulo
65536), step s is exec i at s with pc advanced by the number of its bytes. (40_step_and_addressing.md R100,
10_state.md R23, 30_encoding.md R82) -/
def Obligations.StepRunsTheDecodedInstruction : Prop :=
  ∀ (s : State) (bytes : List Byte) (i : Instr), decode bytes = .instr i [] → s.mem.holds s.pc bytes = true →
    step s = exec i { s with pc := s.pc + BitVec.ofNat 16 bytes.length }

/-- If the cell at pc holds a byte that is the opcode of no instruction, step faults with illegalOpcode of that byte
and that pc, whatever the other cells hold, the Step makes one memory read, and the state afterwards is the state
before. Conversely a Step that faults with illegalOpcode b q has q = pc, the byte b at pc, and b is the opcode of
no instruction. The pc in the fault is the spec's decision D22. (60_exceptions.md R202, 30_encoding.md R85) -/
def Obligations.IllegalOpcodeFaultsWithItsByteAndAddress : Prop :=
  ∀ (s : State) (b : Byte),
    (s.mem.read s.pc = some b → (∀ i : Instr, i.opcode ≠ b) →
      step s = .fault (.illegalOpcode b s.pc) ∧ stepAccesses s = [.read s.pc] ∧
        stepTransaction s = (.fault (.illegalOpcode b s.pc), s)) ∧
    (∀ q : Addr, step s = .fault (.illegalOpcode b q) →
      q = s.pc ∧ s.mem.read s.pc = some b ∧ ∀ i : Instr, i.opcode ≠ b)

/-- step s faults with unmappedAddress a exactly when the transaction list of R66 ends in a read of a, that cell is
undefined, and every read before it is of a defined cell; when step s completes, every read of the list is of a
defined cell. The list is the spec's decision D13. (20_memory.md R66, 20_memory.md R68, 60_exceptions.md R201,
60_exceptions.md R205) -/
def Obligations.StepFaultsAtTheFirstUndefinedRead : Prop :=
  (∀ (s : State) (a : Addr), step s = .fault (.unmappedAddress a) ↔
    ∃ before, stepAccesses s = before ++ [.read a] ∧ s.mem.read a = none ∧
      ∀ r, Access.read r ∈ before → s.mem.read r ≠ none) ∧
  (∀ s t : State, step s = .next t → ∀ r, Access.read r ∈ stepAccesses s → s.mem.read r ≠ none)

/-- When step s answers next t, the memory of t is the memory of s with the writes of the transaction list of R66 made
in order. The list has at most five transactions, and a write in it is the last. The list is the spec's decision
D13. (20_memory.md R61, 20_memory.md R66, 95_test_vectors.md Q12) -/
def Obligations.StepWritesAreThoseOfItsTransactions : Prop :=
  (∀ s t : State, step s = .next t → t.mem = s.mem.replay (stepAccesses s)) ∧
  (∀ s : State, (stepAccesses s).length ≤ 5 ∧
    ∀ before ea v after, stepAccesses s = before ++ Access.write ea v :: after → after = [])

/-- For every state, step answers a next state, or the fault unmappedAddress of some address, or the fault
illegalOpcode of some byte with the pc of the state. (60_exceptions.md R200, 40_step_and_addressing.md R100,
40_step_and_addressing.md R113) -/
def Obligations.StepHasOnlyTheThreeAnswers : Prop :=
  ∀ s : State, (∃ t, step s = .next t) ∨ (∃ a, step s = .fault (.unmappedAddress a)) ∨
    ∃ b, step s = .fault (.illegalOpcode b s.pc)

/-- From every state whose memory has a dense backing, step never faults with unmappedAddress, and the backing of a
next state is dense again. The two backings as one map are the spec's decision D4. (20_memory.md R51, 20_memory.md
R53, 20_memory.md R68) -/
def Obligations.DenseBackingNeverRaisesUnmapped : Prop :=
  ∀ s : State, s.mem.backing = .dense →
    (∀ a, step s ≠ .fault (.unmappedAddress a)) ∧ ∀ t, step s = .next t → t.mem.backing = .dense

/-- The Step transaction answers done with the next state of step, or answers a fault of step with the state unchanged
in every field, pc, sp and clk included. The rollback is the spec's decision D3 (notes/assumptions/6.md).
(40_step_and_addressing.md R108, 40_step_and_addressing.md R100) -/
def Obligations.FaultingStepLeavesTheStateAsItWas : Prop :=
  ∀ s : State, (∃ t, step s = .next t ∧ stepTransaction s = (.done, t)) ∨
    ∃ f, step s = .fault f ∧ stepTransaction s = (.fault f, s)

/-- If the cell at pc holds b, fetchByte gives b and the state with pc plus 1 modulo 65536, all else unchanged; if it
is undefined, fetchByte gives the fault unmappedAddress pc and no state. (40_step_and_addressing.md R101,
10_state.md R23) -/
def Obligations.FetchReadsAtPcAndAdvancesByOne : Prop :=
  ∀ s : State,
    (∀ b, s.mem.read s.pc = some b → ∃ pc', fetchByte s = .ok (b, { s with pc := pc' }) ∧
      pc'.toNat = (s.pc.toNat + 1) % 65536) ∧
    (s.mem.read s.pc = none → fetchByte s = .error (.unmappedAddress s.pc))

/-- As numbers: the next pc is pc + 1 modulo 65536; sp + 1 and sp - 1 are modulo 256; the zero-page address of b is b;
the joined address of h and l is 256 h + l; the second pointer address keeps the high byte and has the low byte
plus 1 modulo 256. (R67) -/
def Obligations.AddressArithmeticWraps : Prop :=
  ∀ (pc ptr : Addr) (b h : Byte),
    (nextPc pc).toNat = (pc.toNat + 1) % 65536 ∧
    (inc8 b).toNat = (b.toNat + 1) % 256 ∧
    (dec8 b).toNat = (b.toNat + 255) % 256 ∧
    (zeroPageAddr b).toNat = b.toNat ∧
    (joinBytes h b).toNat = 256 * h.toNat + b.toNat ∧
    (pointerHighAddr ptr).toNat = 256 * (ptr.toNat / 256) + (ptr.toNat % 256 + 1) % 256

/-- For every sp the stack address is {0x01, sp} = 0x0100 + sp = 0x0100 | sp, and lies in 0x0100 to 0x01FF. Every push
writes at the address of the old sp and leaves sp minus one modulo 256: PHA writes a, PHP writes p with bit 4 set.
Every pull that completes reads at the address of sp plus one modulo 256 and leaves that sp: PLA leaves the byte
in a, PLP merges it into p, bits 4 and 5 kept. A push from sp = 0x00 writes 0x0100 and leaves sp = 0xFF; a pull
from sp = 0xFF sets sp to 0x00 and reads 0x0100. The byte PHP pushes is the spec's decision D15. The meaning of
the mnemonics is the spec's decision D2 (notes/assumptions/3.md). (20_memory.md R59, 46_stack.md R176, 46_stack.md
R177, 46_stack.md R178, 46_stack.md R179) -/
def Obligations.StackAddressStaysInThePage : Prop :=
  (∀ sp : Byte, (stackAddr sp).toNat = 0x0100 + sp.toNat ∧ stackAddr sp = 0x0100#16 ||| sp.setWidth 16 ∧
    stackAddr sp = 0x01#8 ++ sp ∧ 0x0100#16 ≤ stackAddr sp ∧ stackAddr sp ≤ 0x01FF#16) ∧
  (∀ s : State, ∃ t u, exec .pha s = .next t ∧ exec .php s = .next u ∧
    t.sp.toNat = (s.sp.toNat + 255) % 256 ∧ u.sp.toNat = (s.sp.toNat + 255) % 256 ∧
    t.mem.read (stackAddr s.sp) = some s.a ∧ u.mem.read (stackAddr s.sp) = some (s.p ||| 0x10#8) ∧
    (s.sp = 0x00#8 → t.sp = 0xFF#8 ∧ u.sp = 0xFF#8 ∧ t.mem.read 0x0100#16 = some s.a ∧
      u.mem.read 0x0100#16 = some (s.p ||| 0x10#8))) ∧
  (∀ (s : State) (sp1 v : Byte), sp1.toNat = (s.sp.toNat + 1) % 256 → s.mem.read (stackAddr sp1) = some v →
    ∃ t u, exec .pla s = .next t ∧ exec .plp s = .next u ∧ t.sp = sp1 ∧ u.sp = sp1 ∧ t.a = v ∧
      u.p = (s.p &&& 0x30#8) ||| (v &&& 0xCF#8) ∧
      (s.sp = 0xFF#8 → t.sp = 0x00#8 ∧ u.sp = 0x00#8 ∧ s.mem.read 0x0100#16 = some v))

/-- For every status byte and value: bit 1 of nz p v is 1 exactly when v is 0, bit 7 is bit 7 of v, bits 0 and 2 to 6
are those of p, whatever p held; the whole byte is (p & 0x7D) | (0x02 if v == 0 else 0) | (v & 0x80); Zero and
Negative are never both 1; and applying nz to a state changes p alone. (R26) -/
def Obligations.NzSetsZeroAndNegativeOnly : Prop :=
  ∀ (s : State) (p v : Byte),
    NzResult p v (nz p v) ∧
    nz p v = (p &&& 0x7D#8) ||| (if v = 0#8 then 0x02#8 else 0#8) ||| (v &&& 0x80#8) ∧
    ¬((nz p v).getLsbD 1 = true ∧ (nz p v).getLsbD 7 = true) ∧
    s.applyNz v = { s with p := nz s.p v }

/-- State.reset has clk 0 (R30, R35). The other clauses are the model's DESIGN CHOICE: pc 0x0200, sp 0xFD, a x y 0, p
0x24 (notes/assumptions/1.md) and a dense memory with no cell listed, so that every address reads 0
(notes/assumptions/2.md). (10_state.md R30, 10_state.md R35, 92_eei_decisions.md D5) -/
def Obligations.ResetIsTheChosenLaunch : Prop :=
  State.reset.clk = 0 ∧ State.reset.pc = 0x0200#16 ∧ State.reset.sp = 0xFD#8 ∧ State.reset.a = 0#8 ∧
  State.reset.x = 0#8 ∧ State.reset.y = 0#8 ∧ State.reset.p = 0x24#8 ∧ State.reset.mem.backing = .dense ∧
  State.reset.mem.cells = [] ∧ ∀ a, State.reset.mem.read a = some 0#8

/-- A launch from a record whose pairs all name addresses below 65536 gives a state with the six registers as
supplied, clk 0, the backing as supplied, memory in canonical form, and at every address the value of the last
pair of ram for it, or, where there is none, what the backing gives (undefined if sparse, 0 if dense). A record
with a pair outside the address space launches nothing. That the last pair wins is the spec's decision D4;
refusing a pair outside the space is the model's choice (notes/assumptions/7.md), and so is the canonical form,
the clause on inv (notes/assumptions/9.md). (70_reset_and_hazards.md R231, 10_state.md R35, 92_eei_decisions.md
D4) -/
def Obligations.LaunchSetsTheWholeState : Prop :=
  ∀ l : Launch,
    ((∀ c ∈ l.ram, c.1 < 65536) → ∃ s, launch l = some s ∧ s.pc = l.regs.pc ∧ s.sp = l.regs.s ∧ s.a = l.regs.a ∧
      s.x = l.regs.x ∧ s.y = l.regs.y ∧ s.p = l.regs.p ∧ s.clk = 0 ∧ s.mem.backing = l.backing ∧ s.inv = true ∧
      ∀ ea : Addr, s.mem.read ea =
        match l.ram.reverse.find? (fun c => decide (c.1 = ea.toNat)) with
        | some c => some c.2
        | none => if l.backing = .dense then some 0#8 else none) ∧
    ((∃ c ∈ l.ram, 65536 ≤ c.1) → launch l = none)

/-- State.reset meets the invariant that every step keeps. The canonical form and the empty reset memory are the
model's choice (notes/assumptions/9.md, notes/assumptions/2.md). (10_state.md R31, 20_memory.md R53) -/
def Obligations.ResetMeetsTheInvariant : Prop :=
  State.reset.inv = true

/-- From every state whose memory is in canonical form (addresses strictly rising, below 65536, no cell equal to what
an unlisted address reads as), a next state has its memory in canonical form and the same backing. The canonical
form is the model's choice (notes/assumptions/9.md). (10_state.md R31, 20_memory.md R52, 20_memory.md R53) -/
def Obligations.StepKeepsMemoryCanonical : Prop :=
  ∀ s t : State, s.inv = true → step s = .next t → t.inv = true ∧ t.mem.backing = s.mem.backing

/-- If a Step answers a next state, every address that read as a byte before reads as a byte after. (10_state.md R31,
60_exceptions.md R201) -/
def Obligations.StepNeverUndefinesACell : Prop :=
  ∀ s t : State, step s = .next t → ∀ ea, s.mem.read ea ≠ none → t.mem.read ea ≠ none

/-- For every number of Steps from every state, if the run reaches a state, bits 4 and 5 of p are those of the first
state; and the byte PHP pushes has bit 5 as p holds it. That the two bits are plain storage is the spec's decision
D16, the byte PHP pushes its decision D15. (10_state.md R28) -/
def Obligations.BreakAndIgnoredNeverChange : Prop :=
  (∀ (n : Nat) (s t : State), Sys2Proof.core.run n s = .next t →
    t.p.getLsbD 4 = s.p.getLsbD 4 ∧ t.p.getLsbD 5 = s.p.getLsbD 5) ∧
  (∀ s : State, ∃ t v, exec .php s = .next t ∧ t.mem.read (stackAddr s.sp) = some v ∧
    v.getLsbD 5 = s.p.getLsbD 5 ∧ t.p = s.p)

/-- For every instruction that completes, every flag outside its list (the seven flag instructions: one each; PLP:
six; the nz instructions: Zero and Negative; all others: none) keeps its value. What each mnemonic names is the
spec's decision D2 (notes/assumptions/3.md). (10_state.md R24, 10_state.md R25, 10_state.md R27,
95_test_vectors.md Q10) -/
def Obligations.FlagsKeepUnlessNamed : Prop :=
  ∀ (i : Instr) (s t : State), exec i s = .next t → ∀ f, f ∉ flagsWritten i → flagOf t.p f = flagOf s.p f

/-- For every instruction that completes, each of a, x, y, sp outside its list in the table of R21 keeps its value.
What each mnemonic names is the spec's decision D2 (notes/assumptions/3.md). (10_state.md R21, 10_state.md R22) -/
def Obligations.RegistersKeepUnlessNamed : Prop :=
  ∀ (i : Instr) (s t : State), exec i s = .next t → ∀ r, r ∉ regsWritten i → t.readReg r = s.readReg r

/-- For every instruction that completes: if it stores (STA STX STY DEC PHA PHP), the address computed as its meaning
computes it reads as the stored byte and every other address reads as before; if it does not, every address reads
as before. (20_memory.md R52, 20_memory.md R66) -/
def Obligations.MemoryChangesOnlyWhereStored : Prop :=
  ∀ (i : Instr) (s t : State), exec i s = .next t →
    (∀ ea v, storeOf i s = some (ea, v) → t.mem.read ea = some v) ∧
    (∀ b, (∀ ea v, storeOf i s = some (ea, v) → b ≠ ea) → t.mem.read b = s.mem.read b)

/-- If a Step completes, some instruction is encoded at pc, the Step was its effect, and unless it is one of the two
JMPs the new pc is the old one plus the length of the instruction modulo 65536. (10_state.md R23, 30_encoding.md
R82, 95_test_vectors.md Q7) -/
def Obligations.CompletedStepAdvancesPcByLength : Prop :=
  ∀ s t : State, step s = .next t → ∃ i : Instr, s.mem.holds s.pc (encode i) = true ∧
    exec i { s with pc := s.pc + BitVec.ofNat 16 i.length } = .next t ∧
    (isJump i = false → t.pc.toNat = (s.pc.toNat + i.length) % 65536)

/-- For every instruction, the catalog row of its opcode holds the cost of the table of R239; and when the instruction
stands encoded at pc and the Step completes, clk has grown by exactly that cost. The costs are the spec's decision
D2 (notes/assumptions/3.md). (70_reset_and_hazards.md R239, 40_step_and_addressing.md R109) -/
def Obligations.CompletedStepChargesTheTableCost : Prop :=
  (∀ i : Instr, ∃ r, lookupOpcode i.opcode = some r ∧ r.cycles = costOf i) ∧
  (∀ (i : Instr) (s t : State), s.mem.holds s.pc (encode i) = true → step s = .next t → t.clk = s.clk + costOf i)

/-- For every state and d: if step answers next t then from the state with clk + d it answers next with t with clk +
d; if step faults, the fault from the state with clk + d is the same. The counter as state is the spec's decision
D6. (10_state.md R30, 70_reset_and_hazards.md R241) -/
def Obligations.NothingDependsOnClk : Prop :=
  ∀ (s : State) (d : Nat),
    (∀ t, step s = .next t → step { s with clk := s.clk + d } = .next { t with clk := t.clk + d }) ∧
    (∀ f, step s = .fault f → step { s with clk := s.clk + d } = .fault f)

/-- If the byte at pc is not the opcode of PHP, then for every status byte q: where step s answers next t, the Step
from s with p replaced by q answers next with a state that differs from t in p alone; where step s faults, it
faults the same. The opcode byte of PHP is the spec's decision D1 (notes/assumptions/3.md). (10_state.md R25,
10_state.md R29, 47_nop_jump.md R188) -/
def Obligations.FlagsSteerNothingButThePushOfP : Prop :=
  ∀ (s : State) (q : Byte), s.mem.read s.pc ≠ some 0x08#8 →
    (∀ t, step s = .next t → ∃ q', step { s with p := q } = .next { t with p := q' }) ∧
    (∀ f, step s = .fault f → step { s with p := q } = .fault f)

/-- From every state each of the seven completes, writes its bit of p (Carry 0, InterruptDisable 2, Overflow 6,
Decimal 3) to its value, keeps the other seven bits, every register, every cell and pc, and adds 2 to clk. The
meaning of the mnemonics and the costs are the spec's decision D2 (notes/assumptions/3.md). (41_flag_set_clear.md
R120, 41_flag_set_clear.md R121, 41_flag_set_clear.md R122, 41_flag_set_clear.md R123, 41_flag_set_clear.md R124,
41_flag_set_clear.md R125, 41_flag_set_clear.md R126, 41_flag_set_clear.md R127) -/
def Obligations.FlagInstructionsWriteOneBit : Prop :=
  WritesOneFlag .clc 0 false ∧ WritesOneFlag .sec 0 true ∧ WritesOneFlag .cli 2 false ∧ WritesOneFlag .sei 2 true ∧
  WritesOneFlag .clv 6 false ∧ WritesOneFlag .cld 3 false ∧ WritesOneFlag .sed 3 true

/-- From every state the immediate loads complete; the named register takes the operand, Zero and Negative follow it,
the other bits of p, the other registers, memory and pc are unchanged, and clk grows by 2. The meaning of the
mnemonics and the costs are the spec's decision D2 (notes/assumptions/3.md). (42_load_store.md R130,
42_load_store.md R131, 42_load_store.md R134, 42_load_store.md R137) -/
def Obligations.LoadsImmediateReplaceTheRegister : Prop :=
  ∀ (v : Byte) (s : State),
    (∃ p', NzResult s.p (v) p' ∧
      exec (.ldaImm v) s = .next { s with a := v, p := p', clk := s.clk + 2 }) ∧
    (∃ p', NzResult s.p (v) p' ∧
      exec (.ldxImm v) s = .next { s with x := v, p := p', clk := s.clk + 2 }) ∧
    (∃ p', NzResult s.p (v) p' ∧
      exec (.ldyImm v) s = .next { s with y := v, p := p', clk := s.clk + 2 })

/-- For every zero-page byte z whose cell 0x00zz holds v: the loads complete; the named register takes v, Zero and
Negative follow it, the other bits of p, the other registers, memory and pc are unchanged, and clk grows by 3. The
meaning of the mnemonics and the costs are the spec's decision D2 (notes/assumptions/3.md). (42_load_store.md
R130, 42_load_store.md R132, 42_load_store.md R135, 42_load_store.md R138) -/
def Obligations.LoadsFromZeroPageReplaceTheRegister : Prop :=
  ∀ (z v : Byte) (s : State), s.mem.read (0x00#8 ++ z) = some v →
    (∃ p', NzResult s.p (v) p' ∧
      exec (.ldaZp z) s = .next { s with a := v, p := p', clk := s.clk + 3 }) ∧
    (∃ p', NzResult s.p (v) p' ∧
      exec (.ldxZp z) s = .next { s with x := v, p := p', clk := s.clk + 3 }) ∧
    (∃ p', NzResult s.p (v) p' ∧
      exec (.ldyZp z) s = .next { s with y := v, p := p', clk := s.clk + 3 })

/-- For every address whose cell holds v: the loads complete; the named register takes v, Zero and Negative follow it,
the other bits of p, the other registers, memory and pc are unchanged, and clk grows by 4. The meaning of the
mnemonics and the costs are the spec's decision D2 (notes/assumptions/3.md). (42_load_store.md R130,
42_load_store.md R133, 42_load_store.md R136, 42_load_store.md R139) -/
def Obligations.LoadsFromAbsoluteReplaceTheRegister : Prop :=
  ∀ (ea : Addr) (v : Byte) (s : State), s.mem.read ea = some v →
    (∃ p', NzResult s.p (v) p' ∧
      exec (.ldaAbs ea) s = .next { s with a := v, p := p', clk := s.clk + 4 }) ∧
    (∃ p', NzResult s.p (v) p' ∧
      exec (.ldxAbs ea) s = .next { s with x := v, p := p', clk := s.clk + 4 }) ∧
    (∃ p', NzResult s.p (v) p' ∧
      exec (.ldyAbs ea) s = .next { s with y := v, p := p', clk := s.clk + 4 })

/-- With operand v (the immediate, or the byte of the defined cell): AND completes, bit k of the new a is bit k of a
and bit k of v, so that no bit is set that a did not have; Zero and Negative follow the new a; the other bits of
p, x, y, sp, memory and pc are unchanged; clk grows by 2, 3 or 4 by mode. The meaning of the mnemonics and the
costs are the spec's decision D2 (notes/assumptions/3.md). (45_logical.md R170, 45_logical.md R171, 45_logical.md
R172, 45_logical.md R173, 95_test_vectors.md Q14) -/
def Obligations.AndMasksTheAccumulator : Prop :=
  ∀ (ea : Addr) (z v : Byte) (s : State), ∃ (r : Byte) (p' : Byte),
    (∀ k < 8, r.getLsbD k = (s.a.getLsbD k && v.getLsbD k)) ∧ r &&& ~~~s.a = 0#8 ∧ NzResult s.p r p' ∧
    exec (.andImm v) s = .next { s with a := r, p := p', clk := s.clk + 2 } ∧
    (s.mem.read (0x00#8 ++ z) = some v → exec (.andZp z) s = .next { s with a := r, p := p', clk := s.clk + 3 }) ∧
    (s.mem.read ea = some v → exec (.andAbs ea) s = .next { s with a := r, p := p', clk := s.clk + 4 })

/-- From every state, the cell defined or not, the six store forms complete; the cell at the effective address (the
zero-page address of the operand byte, or the 16-bit operand) reads as the register, every other address reads as
before, every register, p and pc are unchanged, and clk grows by 3 or 4 by mode. The meaning of the mnemonics and
the costs are the spec's decision D2 (notes/assumptions/3.md). (42_load_store.md R140, 42_load_store.md R141,
42_load_store.md R142, 42_load_store.md R143, 42_load_store.md R144, 42_load_store.md R145, 42_load_store.md R146) -/
def Obligations.StoresWriteOneCell : Prop :=
  ∀ (z : Byte) (ea : Addr) (s : State),
    (∃ m', CellWritten s.mem m' (zeroPageAddr z) s.a ∧ exec (.staZp z) s = .next { s with mem := m', clk := s.clk + 3 }) ∧
    (∃ m', CellWritten s.mem m' ea s.a ∧ exec (.staAbs ea) s = .next { s with mem := m', clk := s.clk + 4 }) ∧
    (∃ m', CellWritten s.mem m' (zeroPageAddr z) s.x ∧ exec (.stxZp z) s = .next { s with mem := m', clk := s.clk + 3 }) ∧
    (∃ m', CellWritten s.mem m' ea s.x ∧ exec (.stxAbs ea) s = .next { s with mem := m', clk := s.clk + 4 }) ∧
    (∃ m', CellWritten s.mem m' (zeroPageAddr z) s.y ∧ exec (.styZp z) s = .next { s with mem := m', clk := s.clk + 3 }) ∧
    (∃ m', CellWritten s.mem m' ea s.y ∧ exec (.styAbs ea) s = .next { s with mem := m', clk := s.clk + 4 })

/-- From every state TAX TXA TAY TYA TSX complete, the destination takes the source, Zero and Negative follow it; TXS
completes, sp takes x and p is unchanged; everything else but clk, plus 2, is unchanged. The meaning of the
mnemonics and the costs are the spec's decision D2 (notes/assumptions/3.md). (43_transfer.md R150, 43_transfer.md
R151, 43_transfer.md R152, 43_transfer.md R153, 43_transfer.md R154, 43_transfer.md R155, 43_transfer.md R156) -/
def Obligations.TransfersCopyAndSetZeroNegative : Prop :=
  ∀ s : State,
    (∃ p', NzResult s.p s.a p' ∧ exec .tax s = .next { s with x := s.a, p := p', clk := s.clk + 2 }) ∧
    (∃ p', NzResult s.p s.x p' ∧ exec .txa s = .next { s with a := s.x, p := p', clk := s.clk + 2 }) ∧
    (∃ p', NzResult s.p s.a p' ∧ exec .tay s = .next { s with y := s.a, p := p', clk := s.clk + 2 }) ∧
    (∃ p', NzResult s.p s.y p' ∧ exec .tya s = .next { s with a := s.y, p := p', clk := s.clk + 2 }) ∧
    (∃ p', NzResult s.p s.sp p' ∧ exec .tsx s = .next { s with x := s.sp, p := p', clk := s.clk + 2 }) ∧
    exec .txs s = .next { s with sp := s.x, clk := s.clk + 2 }

/-- From every state the four complete; the register becomes its value plus one (minus one, that is plus 255) modulo
256 as a number; Zero and Negative follow the new value; Carry, Overflow and everything else are unchanged but
clk, plus 2. The meaning of the mnemonics and the costs are the spec's decision D2 (notes/assumptions/3.md).
(44_inc_dec.md R160, 44_inc_dec.md R161, 44_inc_dec.md R162, 44_inc_dec.md R163, 44_inc_dec.md R164) -/
def Obligations.RegisterIncDecWrapsModulo256 : Prop :=
  ∀ s : State,
    (∃ v p', v.toNat = (s.x.toNat + 1) % 256 ∧ NzResult s.p v p' ∧ exec .inx s = .next { s with x := v, p := p', clk := s.clk + 2 }) ∧
    (∃ v p', v.toNat = (s.y.toNat + 1) % 256 ∧ NzResult s.p v p' ∧ exec .iny s = .next { s with y := v, p := p', clk := s.clk + 2 }) ∧
    (∃ v p', v.toNat = (s.x.toNat + 255) % 256 ∧ NzResult s.p v p' ∧ exec .dex s = .next { s with x := v, p := p', clk := s.clk + 2 }) ∧
    (∃ v p', v.toNat = (s.y.toNat + 255) % 256 ∧ NzResult s.p v p' ∧ exec .dey s = .next { s with y := v, p := p', clk := s.clk + 2 })

/-- If the cell at the effective address holds v, DEC (zero page, absolute) completes; that cell reads as v minus one
modulo 256, every other address reads as before; Zero and Negative follow the byte written; the other bits of p,
every register and pc are unchanged; clk grows by 5 or 6 by mode. The meaning of the mnemonics and the costs are
the spec's decision D2 (notes/assumptions/3.md). (44_inc_dec.md R165, 44_inc_dec.md R166, 44_inc_dec.md R167) -/
def Obligations.DecDecrementsTheCell : Prop :=
  ∀ (z v : Byte) (ea : Addr) (s : State),
    (s.mem.read (zeroPageAddr z) = some v → ∃ w m' p', w.toNat = (v.toNat + 255) % 256 ∧
      CellWritten s.mem m' (zeroPageAddr z) w ∧ NzResult s.p w p' ∧
      exec (.decZp z) s = .next { s with mem := m', p := p', clk := s.clk + 5 }) ∧
    (s.mem.read ea = some v → ∃ w m' p', w.toNat = (v.toNat + 255) % 256 ∧
      CellWritten s.mem m' ea w ∧ NzResult s.p w p' ∧
      exec (.decAbs ea) s = .next { s with mem := m', p := p', clk := s.clk + 6 })

/-- If the cell at the effective address is undefined, each of the ten forms with a memory operand that is read
answers the fault unmappedAddress of that address. (60_exceptions.md R201, 20_memory.md R68,
40_step_and_addressing.md R115) -/
def Obligations.MemoryOperandsFaultOnAnUndefinedCell : Prop :=
  ∀ (z : Byte) (ea : Addr) (s : State),
    (s.mem.read (0x00#8 ++ z) = none → ∀ i ∈ [Instr.ldaZp z, .ldxZp z, .ldyZp z, .andZp z, .decZp z],
      exec i s = .fault (.unmappedAddress (0x00#8 ++ z))) ∧
    (s.mem.read ea = none → ∀ i ∈ [Instr.ldaAbs ea, .ldxAbs ea, .ldyAbs ea, .andAbs ea, .decAbs ea],
      exec i s = .fault (.unmappedAddress ea))

/-- From every state PHA writes a, and PHP writes p with bit 4 set and the other seven bits as held, to the stack cell
of the old sp; every other address reads as before; sp becomes sp minus one modulo 256; every other register, p
and pc are unchanged; clk grows by 3. The byte PHP pushes is the spec's decision D15. The meaning of the mnemonics
and the costs are the spec's decision D2 (notes/assumptions/3.md). (46_stack.md R175, 46_stack.md R176,
46_stack.md R177) -/
def Obligations.PushesWriteThenDecrement : Prop :=
  ∀ s : State,
    (∃ m' sp', CellWritten s.mem m' (stackAddr s.sp) s.a ∧ sp'.toNat = (s.sp.toNat + 255) % 256 ∧
      exec .pha s = .next { s with mem := m', sp := sp', clk := s.clk + 3 }) ∧
    (∃ m' sp' v, CellWritten s.mem m' (stackAddr s.sp) v ∧ sp'.toNat = (s.sp.toNat + 255) % 256 ∧
      (∀ k < 8, v.getLsbD k = if k = 4 then true else s.p.getLsbD k) ∧
      exec .php s = .next { s with mem := m', sp := sp', clk := s.clk + 3 })

/-- Let sp1 be sp plus one modulo 256. If the cell 0x0100 + sp1 holds v: PLA completes with sp = sp1, a = v and Zero
and Negative from v; PLP completes with sp = sp1 and bits 0, 1, 2, 3, 6, 7 of p from v, bits 4 and 5 kept; memory,
the other registers and pc are unchanged; clk grows by 4. If that cell is undefined both fault with
unmappedAddress of it. The meaning of the mnemonics and the costs are the spec's decision D2
(notes/assumptions/3.md). (46_stack.md R175, 46_stack.md R178, 46_stack.md R179) -/
def Obligations.PullsIncrementThenRead : Prop :=
  ∀ (s : State) (sp1 : Byte), sp1.toNat = (s.sp.toNat + 1) % 256 →
    (∀ v, s.mem.read (stackAddr sp1) = some v →
      (∃ p', NzResult s.p v p' ∧ exec .pla s = .next { s with sp := sp1, a := v, p := p', clk := s.clk + 4 }) ∧
      (∃ p', (∀ k < 8, p'.getLsbD k = if k = 4 ∨ k = 5 then s.p.getLsbD k else v.getLsbD k) ∧
        exec .plp s = .next { s with sp := sp1, p := p', clk := s.clk + 4 })) ∧
    (s.mem.read (stackAddr sp1) = none →
      exec .pla s = .fault (.unmappedAddress (stackAddr sp1)) ∧
      exec .plp s = .fault (.unmappedAddress (stackAddr sp1)))

/-- From every state: PHA completes and PLA then completes with a and sp as at the start, the stack cell holding a,
and Zero and Negative those of a; PHP completes and PLP then completes with all eight bits of p and sp as at the
start, the stack cell holding p with bit 4 set. The spec derives this from its stack rules; the byte PHP pushes is
its decision D15. (46_stack.md R180) -/
def Obligations.PushThenPullRestores : Prop :=
  ∀ s : State,
    (∃ t u, exec .pha s = .next t ∧ exec .pla t = .next u ∧ u.a = s.a ∧ u.sp = s.sp ∧
      u.mem.read (stackAddr s.sp) = some s.a ∧ NzResult s.p s.a u.p) ∧
    (∃ t u, exec .php s = .next t ∧ exec .plp t = .next u ∧ u.p = s.p ∧ u.sp = s.sp ∧
      u.mem.read (stackAddr s.sp) = some (s.p ||| 0x10#8))

/-- From every state NOP completes with clk plus 2 and nothing else changed; JMP absolute completes with pc equal to
its operand and clk plus 3 and nothing else changed, whether or not the target cell is defined. The meaning of the
mnemonics and the costs are the spec's decision D2 (notes/assumptions/3.md). (47_nop_jump.md R185, 47_nop_jump.md
R186, 47_nop_jump.md R188) -/
def Obligations.NopAndAbsoluteJumpComplete : Prop :=
  ∀ (ea : Addr) (s : State),
    exec .nop s = .next { s with clk := s.clk + 2 } ∧
    exec (.jmpAbs ea) s = .next { s with pc := ea, clk := s.clk + 3 }

/-- Let q be ptr & 0xFF00 when the low byte of ptr is 0xFF and ptr + 1 otherwise. If the cells ptr and q hold lo and
hi, JMP indirect completes with pc = 256 hi + lo and clk plus 5 and nothing else changed. If ptr is undefined it
faults with unmappedAddress ptr; if ptr is defined and q is not, with unmappedAddress q. The meaning of the
mnemonics and the costs are the spec's decision D2 (notes/assumptions/3.md). (47_nop_jump.md R187,
95_test_vectors.md Q5) -/
def Obligations.IndirectJumpWrapsInsideThePage : Prop :=
  ∀ (ptr : Addr) (s : State) (q : Addr), q = (if ptr &&& 0x00FF#16 = 0x00FF#16 then ptr &&& 0xFF00#16 else ptr + 1#16) →
    (∀ lo hi, s.mem.read ptr = some lo → s.mem.read q = some hi →
      ∃ target, target.toNat = 256 * hi.toNat + lo.toNat ∧
        exec (.jmpInd ptr) s = .next { s with pc := target, clk := s.clk + 5 }) ∧
    (s.mem.read ptr = none → exec (.jmpInd ptr) s = .fault (.unmappedAddress ptr)) ∧
    (∀ lo, s.mem.read ptr = some lo → s.mem.read q = none → exec (.jmpInd ptr) s = .fault (.unmappedAddress q))

/-- With its bytes defined, LDA immediate completes with a equal to its operand, p by nz of it and clk plus 2; DEC
zero page with the cell minus one modulo 256, p by nz of it and clk plus 5; JMP absolute with pc equal to its
operand and clk plus 3. pc, where it is not the target, is past the instruction modulo 65536; everything else is
unchanged. DEC of an undefined cell faults with its address. The faults of the fetches are stated with it: the
first undefined byte, in address order, is the one named. (R131, R166, R186) -/
def Obligations.StepRulesOfTheOpcodesTheSourceGives : Prop :=
  ByteRule 0xA9#8 (fun v s => .next { s with a := v, p := nz s.p v, clk := s.clk + 2 }) ∧
  ByteRule 0xC6#8 (fun z s => readRule s (0x00#8 ++ z) fun v =>
    { s with mem := s.mem.write (0x00#8 ++ z) (v - 1#8), p := nz s.p (v - 1#8), clk := s.clk + 5 }) ∧
  WordRule 0x4C#8 (fun ea s => .next { s with pc := ea, clk := s.clk + 3 })

/-- For each of the seven: when the byte at pc is its opcode, the Step completes with p masked as the rule says, pc
plus 1, clk plus 2, and everything else unchanged; when the byte at pc is undefined the Step faults with
unmappedAddress pc. The opcode bytes and the costs are those of the spec's decisions D1 and D2
(notes/assumptions/3.md). (41_flag_set_clear.md R121, 41_flag_set_clear.md R122, 41_flag_set_clear.md R123,
41_flag_set_clear.md R124, 41_flag_set_clear.md R125, 41_flag_set_clear.md R126, 41_flag_set_clear.md R127) -/
def Obligations.FlagInstructionStepRules : Prop :=
  ImpliedRule 0x18#8 (fun s => .next { s with p := s.p &&& 0xFE#8, clk := s.clk + 2 }) ∧
  ImpliedRule 0x38#8 (fun s => .next { s with p := s.p ||| 0x01#8, clk := s.clk + 2 }) ∧
  ImpliedRule 0x58#8 (fun s => .next { s with p := s.p &&& 0xFB#8, clk := s.clk + 2 }) ∧
  ImpliedRule 0x78#8 (fun s => .next { s with p := s.p ||| 0x04#8, clk := s.clk + 2 }) ∧
  ImpliedRule 0xB8#8 (fun s => .next { s with p := s.p &&& 0xBF#8, clk := s.clk + 2 }) ∧
  ImpliedRule 0xD8#8 (fun s => .next { s with p := s.p &&& 0xF7#8, clk := s.clk + 2 }) ∧
  ImpliedRule 0xF8#8 (fun s => .next { s with p := s.p ||| 0x08#8, clk := s.clk + 2 })

/-- For each of the eight load opcodes other than LDA immediate: with its operand bytes and, for a memory operand, its
cell defined, the Step completes with the register loaded, p by nz of the loaded byte, pc past the instruction
modulo 65536, clk plus its cost, everything else unchanged; if the data cell is undefined it faults with its
address. The faults of the fetches are stated with it: the first undefined byte, in address order, is the one
named. The opcode bytes and the costs are those of the spec's decisions D1 and D2 (notes/assumptions/3.md).
(42_load_store.md R132, 42_load_store.md R133, 42_load_store.md R134, 42_load_store.md R135, 42_load_store.md
R136, 42_load_store.md R137, 42_load_store.md R138, 42_load_store.md R139) -/
def Obligations.LoadStepRules : Prop :=
  ByteRule 0xA5#8 (fun z s => readRule s (0x00#8 ++ z) fun v => { s with a := v, p := nz s.p v, clk := s.clk + 3 }) ∧
  WordRule 0xAD#8 (fun ea s => readRule s ea fun v => { s with a := v, p := nz s.p v, clk := s.clk + 4 }) ∧
  ByteRule 0xA2#8 (fun v s => .next { s with x := v, p := nz s.p v, clk := s.clk + 2 }) ∧
  ByteRule 0xA6#8 (fun z s => readRule s (0x00#8 ++ z) fun v => { s with x := v, p := nz s.p v, clk := s.clk + 3 }) ∧
  WordRule 0xAE#8 (fun ea s => readRule s ea fun v => { s with x := v, p := nz s.p v, clk := s.clk + 4 }) ∧
  ByteRule 0xA0#8 (fun v s => .next { s with y := v, p := nz s.p v, clk := s.clk + 2 }) ∧
  ByteRule 0xA4#8 (fun z s => readRule s (0x00#8 ++ z) fun v => { s with y := v, p := nz s.p v, clk := s.clk + 3 }) ∧
  WordRule 0xAC#8 (fun ea s => readRule s ea fun v => { s with y := v, p := nz s.p v, clk := s.clk + 4 })

/-- For each of the six store opcodes: with its operand bytes defined, the Step completes with the register written to
the effective address, pc past the instruction modulo 65536, clk plus its cost, p and everything else unchanged,
the target cell defined or not. The faults of the fetches are stated with it: the first undefined byte, in address
order, is the one named. The opcode bytes and the costs are those of the spec's decisions D1 and D2
(notes/assumptions/3.md). (42_load_store.md R141, 42_load_store.md R142, 42_load_store.md R143, 42_load_store.md
R144, 42_load_store.md R145, 42_load_store.md R146) -/
def Obligations.StoreStepRules : Prop :=
  ByteRule 0x85#8 (fun z s => .next { s with mem := s.mem.write (0x00#8 ++ z) s.a, clk := s.clk + 3 }) ∧
  WordRule 0x8D#8 (fun ea s => .next { s with mem := s.mem.write ea s.a, clk := s.clk + 4 }) ∧
  ByteRule 0x86#8 (fun z s => .next { s with mem := s.mem.write (0x00#8 ++ z) s.x, clk := s.clk + 3 }) ∧
  WordRule 0x8E#8 (fun ea s => .next { s with mem := s.mem.write ea s.x, clk := s.clk + 4 }) ∧
  ByteRule 0x84#8 (fun z s => .next { s with mem := s.mem.write (0x00#8 ++ z) s.y, clk := s.clk + 3 }) ∧
  WordRule 0x8C#8 (fun ea s => .next { s with mem := s.mem.write ea s.y, clk := s.clk + 4 })

/-- For each of the six transfer opcodes at pc: the Step completes with the destination equal to the source, p by nz
of it except for TXS, which leaves p, pc plus 1, clk plus 2, everything else unchanged; if the byte at pc is
undefined it faults with unmappedAddress pc. The opcode bytes and the costs are those of the spec's decisions D1
and D2 (notes/assumptions/3.md). (43_transfer.md R151, 43_transfer.md R152, 43_transfer.md R153, 43_transfer.md
R154, 43_transfer.md R155, 43_transfer.md R156) -/
def Obligations.TransferStepRules : Prop :=
  ImpliedRule 0xAA#8 (fun s => .next { s with x := s.a, p := nz s.p s.a, clk := s.clk + 2 }) ∧
  ImpliedRule 0x8A#8 (fun s => .next { s with a := s.x, p := nz s.p s.x, clk := s.clk + 2 }) ∧
  ImpliedRule 0xA8#8 (fun s => .next { s with y := s.a, p := nz s.p s.a, clk := s.clk + 2 }) ∧
  ImpliedRule 0x98#8 (fun s => .next { s with a := s.y, p := nz s.p s.y, clk := s.clk + 2 }) ∧
  ImpliedRule 0xBA#8 (fun s => .next { s with x := s.sp, p := nz s.p s.sp, clk := s.clk + 2 }) ∧
  ImpliedRule 0x9A#8 (fun s => .next { s with sp := s.x, clk := s.clk + 2 })

/-- For each of the five opcodes: the Step completes with the register or the cell plus or minus one modulo 256, p by
nz of the new value, pc past the instruction modulo 65536, clk plus its cost, everything else unchanged; DEC of an
undefined cell faults with its address. The faults of the fetches are stated with it: the first undefined byte, in
address order, is the one named. The opcode bytes and the costs are those of the spec's decisions D1 and D2
(notes/assumptions/3.md). (44_inc_dec.md R161, 44_inc_dec.md R162, 44_inc_dec.md R163, 44_inc_dec.md R164,
44_inc_dec.md R167) -/
def Obligations.IncDecStepRules : Prop :=
  ImpliedRule 0xE8#8 (fun s => .next { s with x := s.x + 1#8, p := nz s.p (s.x + 1#8), clk := s.clk + 2 }) ∧
  ImpliedRule 0xC8#8 (fun s => .next { s with y := s.y + 1#8, p := nz s.p (s.y + 1#8), clk := s.clk + 2 }) ∧
  ImpliedRule 0xCA#8 (fun s => .next { s with x := s.x - 1#8, p := nz s.p (s.x - 1#8), clk := s.clk + 2 }) ∧
  ImpliedRule 0x88#8 (fun s => .next { s with y := s.y - 1#8, p := nz s.p (s.y - 1#8), clk := s.clk + 2 }) ∧
  WordRule 0xCE#8 (fun ea s => readRule s ea fun v =>
    { s with mem := s.mem.write ea (v - 1#8), p := nz s.p (v - 1#8), clk := s.clk + 6 })

/-- For each of the three opcodes: the Step completes with a replaced by the bitwise AND of a and the operand, p by nz
of the new a, pc past the instruction modulo 65536, clk plus its cost, everything else unchanged; an undefined
data cell faults with its address. The faults of the fetches are stated with it: the first undefined byte, in
address order, is the one named. The opcode bytes and the costs are those of the spec's decisions D1 and D2
(notes/assumptions/3.md). (45_logical.md R171, 45_logical.md R172, 45_logical.md R173) -/
def Obligations.AndStepRules : Prop :=
  ByteRule 0x29#8 (fun v s => .next { s with a := s.a &&& v, p := nz s.p (s.a &&& v), clk := s.clk + 2 }) ∧
  ByteRule 0x25#8 (fun z s => readRule s (0x00#8 ++ z) fun v =>
    { s with a := s.a &&& v, p := nz s.p (s.a &&& v), clk := s.clk + 3 }) ∧
  WordRule 0x2D#8 (fun ea s => readRule s ea fun v =>
    { s with a := s.a &&& v, p := nz s.p (s.a &&& v), clk := s.clk + 4 })

/-- For each of the four opcodes at pc: a push writes its byte at 0x0100 + sp and decrements sp modulo 256; a pull
reads at 0x0100 + (sp + 1 modulo 256), increments sp, and writes a with nz, or merges p; pc plus 1, clk plus its
cost, everything else unchanged; an undefined stack cell faults with its address, an undefined opcode cell with
pc. The byte PHP pushes is the spec's decision D15. The opcode bytes and the costs are those of the spec's
decisions D1 and D2 (notes/assumptions/3.md). (46_stack.md R176, 46_stack.md R177, 46_stack.md R178, 46_stack.md
R179) -/
def Obligations.StackStepRules : Prop :=
  ImpliedRule 0x48#8 (fun s => .next { s with mem := s.mem.write (0x01#8 ++ s.sp) s.a, sp := s.sp - 1#8, clk := s.clk + 3 }) ∧
  ImpliedRule 0x08#8 (fun s =>
    .next { s with mem := s.mem.write (0x01#8 ++ s.sp) (s.p ||| 0x10#8), sp := s.sp - 1#8, clk := s.clk + 3 }) ∧
  ImpliedRule 0x68#8 (fun s => readRule s (0x01#8 ++ (s.sp + 1#8)) fun v =>
    { s with sp := s.sp + 1#8, a := v, p := nz s.p v, clk := s.clk + 4 }) ∧
  ImpliedRule 0x28#8 (fun s => readRule s (0x01#8 ++ (s.sp + 1#8)) fun m =>
    { s with sp := s.sp + 1#8, p := (s.p &&& 0x30#8) ||| (m &&& 0xCF#8), clk := s.clk + 4 })

/-- NOP advances pc by 1 and clk by 2. JMP indirect reads the target low byte at ptr, then the high byte at the high
byte of ptr joined with its low byte plus 1 modulo 256, sets pc to them and adds 5 to clk; the first of these
cells that is undefined is the fault. Everything else is unchanged. The faults of the fetches are stated with it:
the first undefined byte, in address order, is the one named. The opcode bytes and the costs are those of the
spec's decisions D1 and D2 (notes/assumptions/3.md). (47_nop_jump.md R185, 47_nop_jump.md R187) -/
def Obligations.NopAndJumpStepRules : Prop :=
  ImpliedRule 0xEA#8 (fun s => .next { s with clk := s.clk + 2 }) ∧
  WordRule 0x6C#8 (fun ptr s =>
    match s.mem.read ptr with
    | none => .fault (.unmappedAddress ptr)
    | some tlo =>
      readRule s (ptr.extractLsb' 8 8 ++ (ptr.extractLsb' 0 8 + 1#8)) fun thi => { s with pc := thi ++ tlo, clk := s.clk + 5 })

/-- A run of at most n Steps: if it ends by the budget, the state is that of n completed Steps, and no state before
it, after fewer than n Steps, has its pc at the stop address; if it ends with a fault, the state is one whose next
Step raises that fault, reached by fewer than n completed Steps, and neither it nor any state before it has its pc
at the stop address; if it ends at the stop address, pc is that address, fewer than n Steps were made, and no
state before it has its pc there; it never ends by a refusal. Looking at the stop address before each Step is the
model's choice (notes/assumptions/5.md). (70_reset_and_hazards.md R234, 60_exceptions.md R208,
40_step_and_addressing.md R110) -/
def Obligations.HostRunStopsAsItsPolicySays : Prop :=
  ∀ (stop : Option Addr) (n : Nat) (s t : State),
    (runUntil stop n s = (.budgetSpent, t) → Sys2Proof.core.run n s = .next t ∧
      ∀ j < n, ∀ u : State, Sys2Proof.core.run j s = .next u → stop ≠ some u.pc) ∧
    (∀ f, runUntil stop n s = (.faulted f, t) → step t = .fault f ∧
      ∃ k < n, Sys2Proof.core.run k s = .next t ∧
        ∀ j ≤ k, ∀ u : State, Sys2Proof.core.run j s = .next u → stop ≠ some u.pc) ∧
    (runUntil stop n s = (.reachedPc, t) → stop = some t.pc ∧
      ∃ k < n, Sys2Proof.core.run k s = .next t ∧
        ∀ j < k, ∀ u : State, Sys2Proof.core.run j s = .next u → stop ≠ some u.pc) ∧
    (∀ r, runUntil stop n s ≠ (.refused r, t))
end

