-- ==== Sys2Proof/Laws/Decode.lean ====
section
/-! SUPPORT. The byte-order helpers as numbers and as inverses of each other, and the catalog: what a lookup can answer
and that every row builds instructions whose encoding begins with its opcode byte. -/

namespace Sys2Proof

/-! ## Byte order -/

@[simp] theorem joinBytes_toNat (h l : Byte) : (joinBytes h l).toNat = 256 * h.toNat + l.toNat := by
  have hl : l.toNat < 2 ^ 8 := l.isLt
  unfold joinBytes
  rw [BitVec.toNat_append, ← Nat.shiftLeft_add_eq_or_of_lt hl, Nat.shiftLeft_eq]
  omega

@[simp] theorem lowByte_toNat (w : Addr) : (lowByte w).toNat = w.toNat % 256 := by
  simp [lowByte, BitVec.extractLsb'_toNat]

@[simp] theorem highByte_toNat (w : Addr) : (highByte w).toNat = w.toNat / 256 := by
  have hw : w.toNat < 65536 := w.isLt
  simp only [highByte, BitVec.extractLsb'_toNat, Nat.shiftRight_eq_div_pow]
  omega

@[simp] theorem joinBytes_high_low (w : Addr) : joinBytes (highByte w) (lowByte w) = w := by
  apply BitVec.eq_of_toNat_eq
  simp only [joinBytes_toNat, highByte_toNat, lowByte_toNat]
  omega

@[simp] theorem lowByte_joinBytes (h l : Byte) : lowByte (joinBytes h l) = l := by
  apply BitVec.eq_of_toNat_eq
  have hl : l.toNat < 256 := l.isLt
  simp only [joinBytes_toNat, lowByte_toNat]
  omega

@[simp] theorem highByte_joinBytes (h l : Byte) : highByte (joinBytes h l) = h := by
  apply BitVec.eq_of_toNat_eq
  have hl : l.toNat < 256 := l.isLt
  simp only [joinBytes_toNat, highByte_toNat]
  omega

/-! ## The catalog -/

/-- Whatever operand a row is given, it builds an instruction encoded as its opcode byte and that operand. -/
def Row.EncodesItsOpcode (r : Row) : Prop :=
  match r.form with
  | .implied i => encode i = [r.opcode]
  | .immediate k => ∀ b, encode (k b) = [r.opcode, b]
  | .zeroPage k => ∀ b, encode (k b) = [r.opcode, b]
  | .absolute k => ∀ w, encode (k w) = [r.opcode, lowByte w, highByte w]
  | .indirect k => ∀ w, encode (k w) = [r.opcode, lowByte w, highByte w]

theorem flagRows_encode : ∀ r ∈ flagRows, r.EncodesItsOpcode := by
  simp [flagRows, Row.EncodesItsOpcode, encode, Instr.opcode, Instr.operandBytes]

theorem loadRows_encode : ∀ r ∈ loadRows, r.EncodesItsOpcode := by
  simp [loadRows, Row.EncodesItsOpcode, encode, Instr.opcode, Instr.operandBytes]

theorem storeRows_encode : ∀ r ∈ storeRows, r.EncodesItsOpcode := by
  simp [storeRows, Row.EncodesItsOpcode, encode, Instr.opcode, Instr.operandBytes]

theorem transferRows_encode : ∀ r ∈ transferRows, r.EncodesItsOpcode := by
  simp [transferRows, Row.EncodesItsOpcode, encode, Instr.opcode, Instr.operandBytes]

theorem incDecRows_encode : ∀ r ∈ incDecRows, r.EncodesItsOpcode := by
  simp [incDecRows, Row.EncodesItsOpcode, encode, Instr.opcode, Instr.operandBytes]

theorem logicalRows_encode : ∀ r ∈ logicalRows, r.EncodesItsOpcode := by
  simp [logicalRows, Row.EncodesItsOpcode, encode, Instr.opcode, Instr.operandBytes]

theorem stackRows_encode : ∀ r ∈ stackRows, r.EncodesItsOpcode := by
  simp [stackRows, Row.EncodesItsOpcode, encode, Instr.opcode, Instr.operandBytes]

theorem nopJumpRows_encode : ∀ r ∈ nopJumpRows, r.EncodesItsOpcode := by
  simp [nopJumpRows, Row.EncodesItsOpcode, encode, Instr.opcode, Instr.operandBytes]

theorem catalog_encodes {r : Row} (h : r ∈ catalog) : r.EncodesItsOpcode := by
  simp only [catalog, List.mem_append] at h
  rcases h with ((((((h | h) | h) | h) | h) | h) | h) | h
  · exact flagRows_encode r h
  · exact loadRows_encode r h
  · exact storeRows_encode r h
  · exact transferRows_encode r h
  · exact incDecRows_encode r h
  · exact logicalRows_encode r h
  · exact stackRows_encode r h
  · exact nopJumpRows_encode r h

/-- What a lookup that finds a row says of it. -/
theorem lookupOpcode_some {b : Byte} {r : Row} (h : lookupOpcode b = some r) :
    r.opcode = b ∧ r.EncodesItsOpcode :=
  ⟨by simpa using List.find?_some h, catalog_encodes (List.mem_of_find?_eq_some h)⟩

/-- A format builds the instruction `i` from the operand bytes `i` is encoded with. -/
def Form.Builds (f : Form) (i : Instr) : Prop :=
  match f with
  | .implied j => j = i ∧ i.operandBytes = []
  | .immediate k => ∃ b, k b = i ∧ i.operandBytes = [b]
  | .zeroPage k => ∃ b, k b = i ∧ i.operandBytes = [b]
  | .absolute k => ∃ w, k w = i ∧ i.operandBytes = [lowByte w, highByte w]
  | .indirect k => ∃ w, k w = i ∧ i.operandBytes = [lowByte w, highByte w]

/-- The opcode byte of every instruction finds a row of its mode that builds it. -/
theorem lookupOpcode_opcode (i : Instr) :
    ∃ r, lookupOpcode i.opcode = some r ∧ r.form.mode = i.mode ∧ r.form.Builds i := by
  cases i <;> first | exact ⟨_, rfl, rfl, rfl, rfl⟩ | exact ⟨_, rfl, rfl, _, rfl, rfl⟩

/-- No two rows have one opcode byte (R80): the catalog is a map. -/
theorem catalog_pairwise : catalog.Pairwise fun r q => r.opcode ≠ q.opcode := by
  have h : (catalog.map Row.opcode).Pairwise (· ≠ ·) := by decide
  exact List.pairwise_map.1 h

/-- The catalog has 44 rows (R84). -/
theorem catalog_length : catalog.length = 44 := rfl

end Sys2Proof
end

