-- ==== Sys2Proof/Laws/Memory.lean ====
section
/-! SUPPORT. The laws of memory: a write is read back, every other address reads as before, the backing stays, the
canonical form is kept, and under one backing a canonical memory is determined by what it reads. -/

namespace Sys2Proof.Machine

/-! ## Cell lists -/

theorem cellAt_insertCell (k j : Nat) (v : Byte) (l : List Host.Cell) :
    cellAt j (insertCell k v l) = if j = k then some v else cellAt j l := by
  induction l with
  | nil => simp [insertCell, cellAt, eq_comm]
  | cons c rest ih =>
    unfold insertCell
    split
    · by_cases h : k = j
      · simp [cellAt, h]
      · simp [cellAt, h, Ne.symm h]
    · split
      · rename_i hk
        subst hk
        by_cases h : j = c.1
        · simp [cellAt, h]
        · simp [cellAt, h, Ne.symm h]
      · rename_i hne
        by_cases h : c.1 = j
        · subst h
          simp [cellAt, hne]
        · simp [cellAt, h, ih]

theorem cellAt_eraseCell (k j : Nat) (l : List Host.Cell) :
    cellAt j (eraseCell k l) = if j = k then none else cellAt j l := by
  induction l with
  | nil => simp [eraseCell, cellAt]
  | cons c rest ih =>
    unfold eraseCell
    split
    · rename_i hk
      subst hk
      by_cases h : j = c.1
      · rw [ih]
        simp [h]
      · simp [ih, h, cellAt, Ne.symm h]
    · rename_i hne
      by_cases h : c.1 = j
      · subst h
        simp [cellAt, hne]
      · simp [cellAt, h, ih]

theorem risingFrom_weaken {lo hi : Nat} {l : List Host.Cell} (hle : lo ≤ hi) (h : risingFrom hi l = true) :
    risingFrom lo l = true := by
  cases l with
  | nil => rfl
  | cons c rest =>
    simp only [risingFrom, Bool.and_eq_true, decide_eq_true_eq] at h ⊢
    exact ⟨hle.trans h.1, h.2⟩

theorem risingFrom_insertCell {k : Nat} {v : Byte} {l : List Host.Cell} :
    ∀ {lo : Nat}, lo ≤ k → risingFrom lo l = true → risingFrom lo (insertCell k v l) = true := by
  induction l with
  | nil =>
    intro lo hk _
    simpa [insertCell, risingFrom] using hk
  | cons c rest ih =>
    intro lo hk h
    simp only [risingFrom, Bool.and_eq_true, decide_eq_true_eq] at h
    unfold insertCell
    split
    · rename_i hlt
      simp only [risingFrom, Bool.and_eq_true, decide_eq_true_eq]
      exact ⟨hk, hlt, h.2⟩
    · split
      · rename_i heq
        simp only [risingFrom, Bool.and_eq_true, decide_eq_true_eq]
        exact ⟨hk, heq ▸ h.2⟩
      · simp only [risingFrom, Bool.and_eq_true, decide_eq_true_eq]
        exact ⟨h.1, ih (by omega) h.2⟩

theorem risingFrom_eraseCell {k : Nat} {l : List Host.Cell} :
    ∀ {lo : Nat}, risingFrom lo l = true → risingFrom lo (eraseCell k l) = true := by
  induction l with
  | nil => intro lo _; rfl
  | cons c rest ih =>
    intro lo h
    simp only [risingFrom, Bool.and_eq_true, decide_eq_true_eq] at h
    unfold eraseCell
    split
    · exact ih (risingFrom_weaken (by omega) h.2)
    · simp only [risingFrom, Bool.and_eq_true, decide_eq_true_eq]
      exact ⟨h.1, ih h.2⟩

theorem all_insertCell {q : Host.Cell → Bool} {k : Nat} {v : Byte} {l : List Host.Cell} (hc : q (k, v) = true)
    (h : l.all q = true) : (insertCell k v l).all q = true := by
  induction l with
  | nil => simpa [insertCell] using hc
  | cons c rest ih =>
    simp only [List.all_cons, Bool.and_eq_true] at h
    unfold insertCell
    split
    · simp [hc, h.1, h.2]
    · split
      · simp [hc, h.2]
      · simp [h.1, ih h.2]

theorem all_eraseCell {q : Host.Cell → Bool} {k : Nat} {l : List Host.Cell} (h : l.all q = true) :
    (eraseCell k l).all q = true := by
  induction l with
  | nil => rfl
  | cons c rest ih =>
    simp only [List.all_cons, Bool.and_eq_true] at h
    unfold eraseCell
    split
    · exact ih h.2
    · simp [h.1, ih h.2]

/-! ## The two primitives -/

@[simp] theorem Memory.write_backing (m : Memory) (ea : Addr) (v : Byte) : (m.write ea v).backing = m.backing := by
  unfold Memory.write
  split <;> rfl

/-- What a read gives after a write, at every address (R52). -/
theorem Memory.read_write (m : Memory) (ea b : Addr) (v : Byte) :
    (m.write ea v).read b = if b = ea then some v else m.read b := by
  have hn : (b.toNat = ea.toNat) ↔ b = ea := BitVec.toNat_inj
  unfold Memory.write
  split
  · rename_i hu
    simp only [Memory.read, cellAt_eraseCell, hn]
    by_cases h : b = ea <;> simp [h, hu]
  · simp only [Memory.read, cellAt_insertCell, hn]
    by_cases h : b = ea <;> simp [h]

@[simp] theorem Memory.read_write_same (m : Memory) (ea : Addr) (v : Byte) : (m.write ea v).read ea = some v := by
  simp [Memory.read_write]

theorem Memory.read_write_other (m : Memory) {ea b : Addr} (v : Byte) (h : b ≠ ea) :
    (m.write ea v).read b = m.read b := by
  simp [Memory.read_write, h]

/-- A write keeps the canonical form. -/
theorem Memory.wf_write {m : Memory} (ea : Addr) (v : Byte) (h : m.wf = true) : (m.write ea v).wf = true := by
  simp only [Memory.wf, Bool.and_eq_true] at h
  unfold Memory.write
  split
  · simp only [Memory.wf, Bool.and_eq_true]
    exact ⟨risingFrom_eraseCell h.1, all_eraseCell h.2⟩
  · rename_i hu
    simp only [Memory.wf, Bool.and_eq_true]
    refine ⟨risingFrom_insertCell (Nat.zero_le _) h.1, all_insertCell ?_ h.2⟩
    have hlt : ea.toNat < 65536 := ea.isLt
    simp [canonicalCell, Config.memorySize, hlt, hu]

/-- Writing a run of bytes keeps the canonical form. -/
theorem Memory.wf_writeBytes {m : Memory} (ea : Addr) (bs : List Byte) (h : m.wf = true) :
    (m.writeBytes ea bs).wf = true := by
  induction bs generalizing m ea with
  | nil => exact h
  | cons b rest ih => exact ih _ (Memory.wf_write ea b h)

/-! ## A canonical memory is determined by what it reads -/

theorem cellAt_below {lo k : Nat} {l : List Host.Cell} (hk : k < lo) (h : risingFrom lo l = true) :
    cellAt k l = none := by
  induction l generalizing lo with
  | nil => rfl
  | cons c rest ih =>
    simp only [risingFrom, Bool.and_eq_true, decide_eq_true_eq] at h
    have hne : c.1 ≠ k := by omega
    simp only [cellAt, hne, if_false]
    exact ih (by omega) h.2

theorem cells_ext {l l' : List Host.Cell} :
    ∀ {lo : Nat}, risingFrom lo l = true → risingFrom lo l' = true → (∀ k, cellAt k l = cellAt k l') → l = l' := by
  induction l generalizing l' with
  | nil =>
    intro lo _ _ h
    cases l' with
    | nil => rfl
    | cons c rest => simpa [cellAt] using h c.1
  | cons c rest ih =>
    intro lo hl hl' h
    cases l' with
    | nil => simpa [cellAt] using h c.1
    | cons d rest' =>
      simp only [risingFrom, Bool.and_eq_true, decide_eq_true_eq] at hl hl'
      have hkey : c.1 = d.1 := by
        rcases Nat.lt_trichotomy c.1 d.1 with hlt | heq | hgt
        · have h1 := h c.1
          have h2 : d.1 ≠ c.1 := by omega
          simp [cellAt, h2, cellAt_below (show c.1 < d.1 + 1 by omega) hl'.2] at h1
        · exact heq
        · have h1 := h d.1
          have h2 : c.1 ≠ d.1 := by omega
          simp [cellAt, h2, cellAt_below (show d.1 < c.1 + 1 by omega) hl.2] at h1
      have hval : c.2 = d.2 := by simpa [cellAt, hkey] using h c.1
      have hcd : c = d := Prod.ext hkey hval
      subst hcd
      refine congrArg (c :: ·) (ih hl.2 hl'.2 fun k => ?_)
      by_cases hk : c.1 = k
      · subst hk
        rw [cellAt_below (Nat.lt_succ_self _) hl.2, cellAt_below (Nat.lt_succ_self _) hl'.2]
      · simpa [cellAt, hk] using h k

theorem cellAt_all {q : Host.Cell → Bool} {l : List Host.Cell} {k : Nat} {v : Byte} (h : l.all q = true)
    (hk : cellAt k l = some v) : q (k, v) = true := by
  induction l with
  | nil => simp [cellAt] at hk
  | cons c rest ih =>
    simp only [List.all_cons, Bool.and_eq_true] at h
    unfold cellAt at hk
    split at hk
    · rename_i hc
      obtain rfl : c = (k, v) := Prod.ext hc (Option.some.inj hk)
      exact h.1
    · exact ih h.2 hk

/-- The listed byte of an address in a canonical memory is what a read gives, unless that is the unlisted value. -/
theorem Memory.cellAt_of_read {m : Memory} (h : m.wf = true) (k : Nat) :
    cellAt k m.cells =
      if k < Config.memorySize ∧ m.read (BitVec.ofNat 16 k) ≠ m.backing.unlisted then m.read (BitVec.ofNat 16 k)
      else none := by
  simp only [Memory.wf, Bool.and_eq_true] at h
  cases hc : cellAt k m.cells with
  | none =>
    by_cases hk : k < Config.memorySize
    · have hm : k % 65536 = k := Nat.mod_eq_of_lt hk
      simp [Memory.read, hm, hc]
    · simp [hk]
  | some v =>
    have hq := cellAt_all h.2 hc
    simp only [canonicalCell, Bool.and_eq_true, decide_eq_true_eq] at hq
    have hm : k % 65536 = k := Nat.mod_eq_of_lt hq.1
    simp [Memory.read, hm, hc, hq.1, Ne.symm hq.2]

/-- Under one backing, canonical memories that read the same at every address are the same data. -/
theorem Memory.ext_of_read {m m' : Memory} (h : m.wf = true) (h' : m'.wf = true) (hb : m.backing = m'.backing)
    (hr : ∀ a, m.read a = m'.read a) : m = m' := by
  have hcells : m.cells = m'.cells := by
    have hw := h
    have hw' := h'
    simp only [Memory.wf, Bool.and_eq_true] at hw hw'
    refine cells_ext hw.1 hw'.1 fun k => ?_
    rw [Memory.cellAt_of_read h, Memory.cellAt_of_read h', hb, hr]
  cases m
  cases m'
  simp_all

/-- A dense memory is defined at every address (R51, R53). -/
theorem Memory.read_dense {m : Memory} (h : m.backing = .dense) (ea : Addr) : ∃ v, m.read ea = some v := by
  unfold Memory.read
  split
  · exact ⟨_, rfl⟩
  · exact ⟨_, by rw [h]; rfl⟩

/-! ## Runs of bytes -/

@[simp] theorem Memory.holds_nil (m : Memory) (ea : Addr) : m.holds ea [] = true := rfl

@[simp] theorem Memory.holds_cons (m : Memory) (ea : Addr) (b : Byte) (bs : List Byte) :
    m.holds ea (b :: bs) = true ↔ m.read ea = some b ∧ m.holds (ea + 1#16) bs = true := by
  simp [Memory.holds]

end Sys2Proof.Machine
end

