-- ==== Sys2Proof/Laws/State.lean ====
section
/-! SUPPORT. One lemma per field per update of the state, true by unfolding, so that no proof unfolds a record update. -/

namespace Sys2Proof.Machine

/-! ## setPc -/

@[simp] theorem State.setPc_pc (s : State) (v : Addr) : (s.setPc v).pc = v := rfl
@[simp] theorem State.setPc_sp (s : State) (v : Addr) : (s.setPc v).sp = s.sp := rfl
@[simp] theorem State.setPc_a (s : State) (v : Addr) : (s.setPc v).a = s.a := rfl
@[simp] theorem State.setPc_x (s : State) (v : Addr) : (s.setPc v).x = s.x := rfl
@[simp] theorem State.setPc_y (s : State) (v : Addr) : (s.setPc v).y = s.y := rfl
@[simp] theorem State.setPc_p (s : State) (v : Addr) : (s.setPc v).p = s.p := rfl
@[simp] theorem State.setPc_mem (s : State) (v : Addr) : (s.setPc v).mem = s.mem := rfl
@[simp] theorem State.setPc_clk (s : State) (v : Addr) : (s.setPc v).clk = s.clk := rfl

/-! ## setSp -/

@[simp] theorem State.setSp_pc (s : State) (v : Byte) : (s.setSp v).pc = s.pc := rfl
@[simp] theorem State.setSp_sp (s : State) (v : Byte) : (s.setSp v).sp = v := rfl
@[simp] theorem State.setSp_a (s : State) (v : Byte) : (s.setSp v).a = s.a := rfl
@[simp] theorem State.setSp_x (s : State) (v : Byte) : (s.setSp v).x = s.x := rfl
@[simp] theorem State.setSp_y (s : State) (v : Byte) : (s.setSp v).y = s.y := rfl
@[simp] theorem State.setSp_p (s : State) (v : Byte) : (s.setSp v).p = s.p := rfl
@[simp] theorem State.setSp_mem (s : State) (v : Byte) : (s.setSp v).mem = s.mem := rfl
@[simp] theorem State.setSp_clk (s : State) (v : Byte) : (s.setSp v).clk = s.clk := rfl

/-! ## setP -/

@[simp] theorem State.setP_pc (s : State) (v : Byte) : (s.setP v).pc = s.pc := rfl
@[simp] theorem State.setP_sp (s : State) (v : Byte) : (s.setP v).sp = s.sp := rfl
@[simp] theorem State.setP_a (s : State) (v : Byte) : (s.setP v).a = s.a := rfl
@[simp] theorem State.setP_x (s : State) (v : Byte) : (s.setP v).x = s.x := rfl
@[simp] theorem State.setP_y (s : State) (v : Byte) : (s.setP v).y = s.y := rfl
@[simp] theorem State.setP_p (s : State) (v : Byte) : (s.setP v).p = v := rfl
@[simp] theorem State.setP_mem (s : State) (v : Byte) : (s.setP v).mem = s.mem := rfl
@[simp] theorem State.setP_clk (s : State) (v : Byte) : (s.setP v).clk = s.clk := rfl

/-! ## setMem -/

@[simp] theorem State.setMem_pc (s : State) (v : Memory) : (s.setMem v).pc = s.pc := rfl
@[simp] theorem State.setMem_sp (s : State) (v : Memory) : (s.setMem v).sp = s.sp := rfl
@[simp] theorem State.setMem_a (s : State) (v : Memory) : (s.setMem v).a = s.a := rfl
@[simp] theorem State.setMem_x (s : State) (v : Memory) : (s.setMem v).x = s.x := rfl
@[simp] theorem State.setMem_y (s : State) (v : Memory) : (s.setMem v).y = s.y := rfl
@[simp] theorem State.setMem_p (s : State) (v : Memory) : (s.setMem v).p = s.p := rfl
@[simp] theorem State.setMem_mem (s : State) (v : Memory) : (s.setMem v).mem = v := rfl
@[simp] theorem State.setMem_clk (s : State) (v : Memory) : (s.setMem v).clk = s.clk := rfl

/-! ## writeReg -/

@[simp] theorem State.writeReg_a_pc (s : State) (v : Byte) : (s.writeReg .a v).pc = s.pc := rfl
@[simp] theorem State.writeReg_a_sp (s : State) (v : Byte) : (s.writeReg .a v).sp = s.sp := rfl
@[simp] theorem State.writeReg_a_a (s : State) (v : Byte) : (s.writeReg .a v).a = v := rfl
@[simp] theorem State.writeReg_a_x (s : State) (v : Byte) : (s.writeReg .a v).x = s.x := rfl
@[simp] theorem State.writeReg_a_y (s : State) (v : Byte) : (s.writeReg .a v).y = s.y := rfl
@[simp] theorem State.writeReg_a_p (s : State) (v : Byte) : (s.writeReg .a v).p = s.p := rfl
@[simp] theorem State.writeReg_a_mem (s : State) (v : Byte) : (s.writeReg .a v).mem = s.mem := rfl
@[simp] theorem State.writeReg_a_clk (s : State) (v : Byte) : (s.writeReg .a v).clk = s.clk := rfl

@[simp] theorem State.writeReg_x_pc (s : State) (v : Byte) : (s.writeReg .x v).pc = s.pc := rfl
@[simp] theorem State.writeReg_x_sp (s : State) (v : Byte) : (s.writeReg .x v).sp = s.sp := rfl
@[simp] theorem State.writeReg_x_a (s : State) (v : Byte) : (s.writeReg .x v).a = s.a := rfl
@[simp] theorem State.writeReg_x_x (s : State) (v : Byte) : (s.writeReg .x v).x = v := rfl
@[simp] theorem State.writeReg_x_y (s : State) (v : Byte) : (s.writeReg .x v).y = s.y := rfl
@[simp] theorem State.writeReg_x_p (s : State) (v : Byte) : (s.writeReg .x v).p = s.p := rfl
@[simp] theorem State.writeReg_x_mem (s : State) (v : Byte) : (s.writeReg .x v).mem = s.mem := rfl
@[simp] theorem State.writeReg_x_clk (s : State) (v : Byte) : (s.writeReg .x v).clk = s.clk := rfl

@[simp] theorem State.writeReg_y_pc (s : State) (v : Byte) : (s.writeReg .y v).pc = s.pc := rfl
@[simp] theorem State.writeReg_y_sp (s : State) (v : Byte) : (s.writeReg .y v).sp = s.sp := rfl
@[simp] theorem State.writeReg_y_a (s : State) (v : Byte) : (s.writeReg .y v).a = s.a := rfl
@[simp] theorem State.writeReg_y_x (s : State) (v : Byte) : (s.writeReg .y v).x = s.x := rfl
@[simp] theorem State.writeReg_y_y (s : State) (v : Byte) : (s.writeReg .y v).y = v := rfl
@[simp] theorem State.writeReg_y_p (s : State) (v : Byte) : (s.writeReg .y v).p = s.p := rfl
@[simp] theorem State.writeReg_y_mem (s : State) (v : Byte) : (s.writeReg .y v).mem = s.mem := rfl
@[simp] theorem State.writeReg_y_clk (s : State) (v : Byte) : (s.writeReg .y v).clk = s.clk := rfl

@[simp] theorem State.writeReg_sp_pc (s : State) (v : Byte) : (s.writeReg .sp v).pc = s.pc := rfl
@[simp] theorem State.writeReg_sp_sp (s : State) (v : Byte) : (s.writeReg .sp v).sp = v := rfl
@[simp] theorem State.writeReg_sp_a (s : State) (v : Byte) : (s.writeReg .sp v).a = s.a := rfl
@[simp] theorem State.writeReg_sp_x (s : State) (v : Byte) : (s.writeReg .sp v).x = s.x := rfl
@[simp] theorem State.writeReg_sp_y (s : State) (v : Byte) : (s.writeReg .sp v).y = s.y := rfl
@[simp] theorem State.writeReg_sp_p (s : State) (v : Byte) : (s.writeReg .sp v).p = s.p := rfl
@[simp] theorem State.writeReg_sp_mem (s : State) (v : Byte) : (s.writeReg .sp v).mem = s.mem := rfl
@[simp] theorem State.writeReg_sp_clk (s : State) (v : Byte) : (s.writeReg .sp v).clk = s.clk := rfl

@[simp] theorem State.readReg_a (s : State) : s.readReg .a = s.a := rfl
@[simp] theorem State.readReg_x (s : State) : s.readReg .x = s.x := rfl
@[simp] theorem State.readReg_y (s : State) : s.readReg .y = s.y := rfl
@[simp] theorem State.readReg_sp (s : State) : s.readReg .sp = s.sp := rfl

theorem State.readReg_writeReg (s : State) (r q : Reg) (v : Byte) :
    (s.writeReg r v).readReg q = if q = r then v else s.readReg q := by
  cases r <;> cases q <;> rfl

theorem State.writeReg_mem (s : State) (r : Reg) (v : Byte) : (s.writeReg r v).mem = s.mem := by cases r <;> rfl

theorem State.writeReg_p (s : State) (r : Reg) (v : Byte) : (s.writeReg r v).p = s.p := by cases r <;> rfl

theorem State.writeReg_pc (s : State) (r : Reg) (v : Byte) : (s.writeReg r v).pc = s.pc := by cases r <;> rfl

theorem State.writeReg_clk (s : State) (r : Reg) (v : Byte) : (s.writeReg r v).clk = s.clk := by cases r <;> rfl

/-! ## store and applyNz -/

@[simp] theorem State.store_pc (s : State) (ea : Addr) (v : Byte) : (s.store ea v).pc = s.pc := rfl
@[simp] theorem State.store_sp (s : State) (ea : Addr) (v : Byte) : (s.store ea v).sp = s.sp := rfl
@[simp] theorem State.store_a (s : State) (ea : Addr) (v : Byte) : (s.store ea v).a = s.a := rfl
@[simp] theorem State.store_x (s : State) (ea : Addr) (v : Byte) : (s.store ea v).x = s.x := rfl
@[simp] theorem State.store_y (s : State) (ea : Addr) (v : Byte) : (s.store ea v).y = s.y := rfl
@[simp] theorem State.store_p (s : State) (ea : Addr) (v : Byte) : (s.store ea v).p = s.p := rfl
@[simp] theorem State.store_mem (s : State) (ea : Addr) (v : Byte) : (s.store ea v).mem = s.mem.write ea v := rfl
@[simp] theorem State.store_clk (s : State) (ea : Addr) (v : Byte) : (s.store ea v).clk = s.clk := rfl

@[simp] theorem State.applyNz_pc (s : State) (v : Byte) : (s.applyNz v).pc = s.pc := rfl
@[simp] theorem State.applyNz_sp (s : State) (v : Byte) : (s.applyNz v).sp = s.sp := rfl
@[simp] theorem State.applyNz_a (s : State) (v : Byte) : (s.applyNz v).a = s.a := rfl
@[simp] theorem State.applyNz_x (s : State) (v : Byte) : (s.applyNz v).x = s.x := rfl
@[simp] theorem State.applyNz_y (s : State) (v : Byte) : (s.applyNz v).y = s.y := rfl
@[simp] theorem State.applyNz_p (s : State) (v : Byte) : (s.applyNz v).p = nz s.p v := rfl
@[simp] theorem State.applyNz_mem (s : State) (v : Byte) : (s.applyNz v).mem = s.mem := rfl
@[simp] theorem State.applyNz_clk (s : State) (v : Byte) : (s.applyNz v).clk = s.clk := rfl

end Sys2Proof.Machine
end

