-- ==== Sys2Proof/Laws/Ops.lean ====
section
/-! SUPPORT. For each shared operation, once, everything it can answer. Proofs cite these instead of unfolding it. -/

namespace Sys2Proof.Machine

/-! ## Ends -/

@[simp] theorem complete_eq_next {n : Nat} {s t : State} :
    complete n s = .next t ↔ t = { s with clk := s.clk + n } := by
  simp [complete, eq_comm]

@[simp] theorem complete_ne_fault {n : Nat} {s : State} {f : Fault} : complete n s ≠ .fault f := by simp [complete]

@[simp] theorem complete_ne_refused {n : Nat} {s : State} {r : Refusal} : complete n s ≠ .refused r := by
  simp [complete]

@[simp] theorem takeFault_eq (f : Fault) : takeFault f = .fault f := rfl

/-! ## Reads -/

theorem withRead_some {s : State} {ea : Addr} {v : Byte} (k : Byte → Result) (h : s.mem.read ea = some v) :
    withRead s ea k = k v := by
  simp [withRead, h]

theorem withRead_none {s : State} {ea : Addr} (k : Byte → Result) (h : s.mem.read ea = none) :
    withRead s ea k = .fault (.unmappedAddress ea) := by
  simp [withRead, h]

theorem withRead_eq_next {s t : State} {ea : Addr} {k : Byte → Result} :
    withRead s ea k = .next t ↔ ∃ v, s.mem.read ea = some v ∧ k v = .next t := by
  cases h : s.mem.read ea <;> simp [withRead, h]

theorem withRead_eq_fault {s : State} {ea : Addr} {k : Byte → Result} {f : Fault} :
    withRead s ea k = .fault f ↔
      (s.mem.read ea = none ∧ f = .unmappedAddress ea) ∨ ∃ v, s.mem.read ea = some v ∧ k v = .fault f := by
  cases h : s.mem.read ea <;> simp [withRead, h, eq_comm]

theorem withRead_eq_refused {s : State} {ea : Addr} {k : Byte → Result} {r : Refusal} :
    withRead s ea k = .refused r ↔ ∃ v, s.mem.read ea = some v ∧ k v = .refused r := by
  cases h : s.mem.read ea <;> simp [withRead, h]

/-- Where an operand's value comes from: itself, or the cell. -/
def Operand.valueIn (o : Operand) (m : Memory) : Option Byte :=
  match o with
  | .imm v => some v
  | .cell ea => m.read ea

theorem withOperand_eq_next {s t : State} {o : Operand} {k : Byte → Result} :
    withOperand s o k = .next t ↔ ∃ v, o.valueIn s.mem = some v ∧ k v = .next t := by
  cases o
  · simp [withOperand, Operand.valueIn]
  · simp [withOperand, Operand.valueIn, withRead_eq_next]

/-! ## Effects shared by a family -/

theorem writeRegNz_eq_next {r : Reg} {v : Byte} {n : Nat} {s t : State} :
    writeRegNz r v n s = .next t ↔ t = { (s.writeReg r v).applyNz v with clk := s.clk + n } := by
  cases r <;> simp [writeRegNz]

theorem loadInto_eq_next {r : Reg} {o : Operand} {n : Nat} {s t : State} :
    loadInto r o n s = .next t ↔
      ∃ v, o.valueIn s.mem = some v ∧ t = { (s.writeReg r v).applyNz v with clk := s.clk + n } := by
  simp only [loadInto, withOperand_eq_next, writeRegNz_eq_next]

theorem andInto_eq_next {o : Operand} {n : Nat} {s t : State} :
    andInto o n s = .next t ↔
      ∃ v, o.valueIn s.mem = some v ∧ t = { (s.writeReg .a (s.a &&& v)).applyNz (s.a &&& v) with clk := s.clk + n } := by
  simp only [andInto, withOperand_eq_next, writeRegNz_eq_next, and8]

theorem storeFrom_eq_next {r : Reg} {ea : Addr} {n : Nat} {s t : State} :
    storeFrom r ea n s = .next t ↔ t = { s with mem := s.mem.write ea (s.readReg r), clk := s.clk + n } := by
  simp [storeFrom, State.store, State.setMem]

theorem decrementCell_eq_next {ea : Addr} {n : Nat} {s t : State} :
    decrementCell ea n s = .next t ↔
      ∃ v, s.mem.read ea = some v ∧
        t = { s with mem := s.mem.write ea (v - 1#8), p := nz s.p (v - 1#8), clk := s.clk + n } := by
  simp [decrementCell, withRead_eq_next, dec8, State.store, State.setMem, State.applyNz, State.setP]

theorem push_eq_next {v : Byte} {n : Nat} {s t : State} :
    push v n s = .next t ↔
      t = { s with mem := s.mem.write (stackAddr s.sp) v, sp := s.sp - 1#8, clk := s.clk + n } := by
  simp [push, State.store, State.setMem, State.setSp, dec8]

theorem pull_eq_next {s t : State} {k : Byte → State → Result} :
    pull s k = .next t ↔
      ∃ v, s.mem.read (stackAddr (s.sp + 1#8)) = some v ∧ k v { s with sp := s.sp + 1#8 } = .next t := by
  simp [pull, withRead_eq_next, State.setSp, inc8]

theorem flagSet_eq_next {f : Flag} {n : Nat} {s t : State} :
    flagSet f n s = .next t ↔ t = { s with p := s.p ||| f.mask, clk := s.clk + n } := by
  simp [flagSet, setFlag, State.setP]

theorem flagClear_eq_next {f : Flag} {n : Nat} {s t : State} :
    flagClear f n s = .next t ↔ t = { s with p := s.p &&& ~~~f.mask, clk := s.clk + n } := by
  simp [flagClear, clearFlag, State.setP]

/-! ## Fetch -/

theorem fetchByte_eq_ok {s s1 : State} {b : Byte} :
    fetchByte s = .ok (b, s1) ↔ s.mem.read s.pc = some b ∧ s1 = { s with pc := s.pc + 1#16 } := by
  cases h : s.mem.read s.pc <;> simp [fetchByte, h, State.setPc, nextPc, eq_comm]

theorem fetchByte_eq_error {s : State} {f : Fault} :
    fetchByte s = .error f ↔ s.mem.read s.pc = none ∧ f = .unmappedAddress s.pc := by
  cases h : s.mem.read s.pc <;> simp [fetchByte, h, eq_comm]

theorem fetchWord_eq_ok {s s1 : State} {w : Addr} :
    fetchWord s = .ok (w, s1) ↔
      ∃ lo hi, s.mem.read s.pc = some lo ∧ s.mem.read (s.pc + 1#16) = some hi ∧ w = joinBytes hi lo ∧
        s1 = { s with pc := s.pc + 1#16 + 1#16 } := by
  cases h : s.mem.read s.pc with
  | none => simp [fetchWord, fetchByte, h]
  | some lo =>
    cases h2 : s.mem.read (s.pc + 1#16) <;>
      simp [fetchWord, fetchByte, h, h2, State.setPc, nextPc, eq_comm]

theorem fetchWord_eq_error {s : State} {f : Fault} :
    fetchWord s = .error f ↔
      (s.mem.read s.pc = none ∧ f = .unmappedAddress s.pc) ∨
      (∃ lo, s.mem.read s.pc = some lo ∧ s.mem.read (s.pc + 1#16) = none ∧ f = .unmappedAddress (s.pc + 1#16)) := by
  cases h : s.mem.read s.pc with
  | none => simp [fetchWord, fetchByte, h, eq_comm]
  | some lo =>
    cases h2 : s.mem.read (s.pc + 1#16) <;>
      simp [fetchWord, fetchByte, h, h2, State.setPc, nextPc, eq_comm]

end Sys2Proof.Machine
end

