-- ==== Sys2Proof/Laws/Exec.lean ====
section
/-! SUPPORT. What every instruction's effect can answer, said once over all of them: it refuses nothing, its one fault is
an undefined cell, and the memory it leaves is the old one with the writes of its transaction list. -/

namespace Sys2Proof.Machine

/-- An effect that faults names an undefined cell (R51, R201). -/
theorem exec_fault {i : Instr} {s : State} {f : Fault} (h : exec i s = .fault f) :
    ∃ ea, f = .unmappedAddress ea ∧ s.mem.read ea = none := by
  cases i
  all_goals first
    | exact absurd h complete_ne_fault
    | (rcases withRead_eq_fault.1 h with ⟨h1, h2⟩ | ⟨_, -, h⟩
       · exact ⟨_, h2, h1⟩
       · first
         | exact absurd h complete_ne_fault
         | (rcases withRead_eq_fault.1 h with ⟨h1, h2⟩ | ⟨_, -, h⟩
            · exact ⟨_, h2, h1⟩
            · exact absurd h complete_ne_fault))

/-- No effect refuses anything. -/
theorem exec_ne_refused (i : Instr) (s : State) (r : Refusal) : exec i s ≠ .refused r := by
  intro h
  cases i
  all_goals first
    | exact complete_ne_refused h
    | (obtain ⟨_, -, h⟩ := withRead_eq_refused.1 h
       first
       | exact complete_ne_refused h
       | (obtain ⟨_, -, h⟩ := withRead_eq_refused.1 h; exact complete_ne_refused h))

/-- The memory after an effect is the memory before with the writes of the effect's transactions (R66). -/
theorem exec_mem {i : Instr} {s t : State} (h : exec i s = .next t) : t.mem = s.mem.replay (effectAccesses i s) := by
  have dec : ∀ {ea : Addr} {n : Nat}, decrementCell ea n s = .next t →
      t.mem = s.mem.replay (readThen s.mem ea fun v => [.write ea (dec8 v)]) := by
    intro ea n h
    obtain ⟨v, hv, rfl⟩ := decrementCell_eq_next.1 h
    simp [readThen, hv, Memory.replay, dec8]
  cases i
  all_goals first
    | (obtain rfl := complete_eq_next.1 h; rfl)
    | exact dec h
    | (obtain ⟨_, hv, h⟩ := withRead_eq_next.1 h
       first
       | (obtain rfl := complete_eq_next.1 h; rfl)
       | (obtain ⟨_, -, h⟩ := withRead_eq_next.1 h
          obtain rfl := complete_eq_next.1 h
          simp [effectAccesses, readThen, hv, Memory.replay, State.setPc]))

end Sys2Proof.Machine
end

