-- ==== Sys2Proof/Laws/PerInstr.lean ====
section
/-! SUPPORT. What holds of every instruction as syntax, one lemma per constructor: its encoding has the length of its
mode, and its opcode byte finds a catalog row of that byte and that mode (30_encoding.md R81, R82, R84). -/

namespace Sys2Proof.Laws.Encoding

/-- The encoding of `i` has the length of its mode, and the catalog row of its opcode byte is of that mode. -/
def Statement (i : Instr) : Prop :=
  (encode i).length = i.length ∧
    ∃ r, lookupOpcode i.opcode = some r ∧ r.opcode = i.opcode ∧ r.form.mode = i.mode

theorem clc : Statement .clc := ⟨rfl, _, rfl, rfl, rfl⟩

theorem sec : Statement .sec := ⟨rfl, _, rfl, rfl, rfl⟩

theorem cli : Statement .cli := ⟨rfl, _, rfl, rfl, rfl⟩

theorem sei : Statement .sei := ⟨rfl, _, rfl, rfl, rfl⟩

theorem clv : Statement .clv := ⟨rfl, _, rfl, rfl, rfl⟩

theorem cld : Statement .cld := ⟨rfl, _, rfl, rfl, rfl⟩

theorem sed : Statement .sed := ⟨rfl, _, rfl, rfl, rfl⟩

theorem ldaImm (imm : Byte) : Statement (.ldaImm imm) := ⟨rfl, _, rfl, rfl, rfl⟩

theorem ldaZp (zp : Byte) : Statement (.ldaZp zp) := ⟨rfl, _, rfl, rfl, rfl⟩

theorem ldaAbs (ea : Addr) : Statement (.ldaAbs ea) := ⟨rfl, _, rfl, rfl, rfl⟩

theorem ldxImm (imm : Byte) : Statement (.ldxImm imm) := ⟨rfl, _, rfl, rfl, rfl⟩

theorem ldxZp (zp : Byte) : Statement (.ldxZp zp) := ⟨rfl, _, rfl, rfl, rfl⟩

theorem ldxAbs (ea : Addr) : Statement (.ldxAbs ea) := ⟨rfl, _, rfl, rfl, rfl⟩

theorem ldyImm (imm : Byte) : Statement (.ldyImm imm) := ⟨rfl, _, rfl, rfl, rfl⟩

theorem ldyZp (zp : Byte) : Statement (.ldyZp zp) := ⟨rfl, _, rfl, rfl, rfl⟩

theorem ldyAbs (ea : Addr) : Statement (.ldyAbs ea) := ⟨rfl, _, rfl, rfl, rfl⟩

theorem staZp (zp : Byte) : Statement (.staZp zp) := ⟨rfl, _, rfl, rfl, rfl⟩

theorem staAbs (ea : Addr) : Statement (.staAbs ea) := ⟨rfl, _, rfl, rfl, rfl⟩

theorem stxZp (zp : Byte) : Statement (.stxZp zp) := ⟨rfl, _, rfl, rfl, rfl⟩

theorem stxAbs (ea : Addr) : Statement (.stxAbs ea) := ⟨rfl, _, rfl, rfl, rfl⟩

theorem styZp (zp : Byte) : Statement (.styZp zp) := ⟨rfl, _, rfl, rfl, rfl⟩

theorem styAbs (ea : Addr) : Statement (.styAbs ea) := ⟨rfl, _, rfl, rfl, rfl⟩

theorem tax : Statement .tax := ⟨rfl, _, rfl, rfl, rfl⟩

theorem txa : Statement .txa := ⟨rfl, _, rfl, rfl, rfl⟩

theorem tay : Statement .tay := ⟨rfl, _, rfl, rfl, rfl⟩

theorem tya : Statement .tya := ⟨rfl, _, rfl, rfl, rfl⟩

theorem tsx : Statement .tsx := ⟨rfl, _, rfl, rfl, rfl⟩

theorem txs : Statement .txs := ⟨rfl, _, rfl, rfl, rfl⟩

theorem inx : Statement .inx := ⟨rfl, _, rfl, rfl, rfl⟩

theorem iny : Statement .iny := ⟨rfl, _, rfl, rfl, rfl⟩

theorem dex : Statement .dex := ⟨rfl, _, rfl, rfl, rfl⟩

theorem dey : Statement .dey := ⟨rfl, _, rfl, rfl, rfl⟩

theorem decZp (zp : Byte) : Statement (.decZp zp) := ⟨rfl, _, rfl, rfl, rfl⟩

theorem decAbs (ea : Addr) : Statement (.decAbs ea) := ⟨rfl, _, rfl, rfl, rfl⟩

theorem andImm (imm : Byte) : Statement (.andImm imm) := ⟨rfl, _, rfl, rfl, rfl⟩

theorem andZp (zp : Byte) : Statement (.andZp zp) := ⟨rfl, _, rfl, rfl, rfl⟩

theorem andAbs (ea : Addr) : Statement (.andAbs ea) := ⟨rfl, _, rfl, rfl, rfl⟩

theorem pha : Statement .pha := ⟨rfl, _, rfl, rfl, rfl⟩

theorem php : Statement .php := ⟨rfl, _, rfl, rfl, rfl⟩

theorem pla : Statement .pla := ⟨rfl, _, rfl, rfl, rfl⟩

theorem plp : Statement .plp := ⟨rfl, _, rfl, rfl, rfl⟩

theorem nop : Statement .nop := ⟨rfl, _, rfl, rfl, rfl⟩

theorem jmpAbs (ea : Addr) : Statement (.jmpAbs ea) := ⟨rfl, _, rfl, rfl, rfl⟩

theorem jmpInd (ptr : Addr) : Statement (.jmpInd ptr) := ⟨rfl, _, rfl, rfl, rfl⟩

end Sys2Proof.Laws.Encoding
end

