-- ==== Sys2Proof/Laws/Step.lean ====
section
/-! SUPPORT. What fetching an instruction can answer, said once: it gives exactly the instruction encoded at `pc`, with
`pc` past it, and its faults are the four of R205 (a) to (c). What a Step can answer follows. -/

namespace Sys2Proof.Machine

theorem fetchByte_some {s : State} {b : Byte} (h : s.mem.read s.pc = some b) :
    fetchByte s = .ok (b, { s with pc := s.pc + 1#16 }) := fetchByte_eq_ok.2 ⟨h, rfl⟩

theorem fetchByte_none {s : State} (h : s.mem.read s.pc = none) :
    fetchByte s = .error (.unmappedAddress s.pc) := fetchByte_eq_error.2 ⟨h, rfl⟩

theorem fetchInstr_of_row {s : State} {b : Byte} {r : Row} (h : s.mem.read s.pc = some b)
    (hr : lookupOpcode b = some r) : fetchInstr s = resolve r.form { s with pc := s.pc + 1#16 } := by
  simp [fetchInstr, fetchByte_some h, hr]

/-- The instruction encoded at `pc` is the one fetched. -/
theorem fetchInstr_of_holds {s : State} {i : Instr} (h : s.mem.holds s.pc (encode i) = true) :
    fetchInstr s = .ok (i, { s with pc := s.pc + BitVec.ofNat 16 i.length }) := by
  obtain ⟨r, hr, hm, hb⟩ := lookupOpcode_opcode i
  obtain ⟨h1, h2⟩ := (Memory.holds_cons _ _ _ _).1 h
  rw [fetchInstr_of_row h1 hr]
  unfold Instr.length
  rw [← hm]
  have e2 : s.pc + 1#16 + 1#16 = s.pc + 2#16 := by bv_omega
  have e3 : s.pc + 1#16 + 1#16 + 1#16 = s.pc + 3#16 := by bv_omega
  cases hf : r.form with
  | implied j =>
    rw [hf] at hb
    obtain ⟨rfl, -⟩ := hb
    rfl
  | immediate k =>
    rw [hf] at hb
    obtain ⟨b, rfl, ho⟩ := hb
    rw [ho] at h2
    have hb' := ((Memory.holds_cons _ _ _ _).1 h2).1
    simp [resolve, fetchByte, hb', State.setPc, nextPc, Form.mode, Mode.length, e2]
  | zeroPage k =>
    rw [hf] at hb
    obtain ⟨b, rfl, ho⟩ := hb
    rw [ho] at h2
    have hb' := ((Memory.holds_cons _ _ _ _).1 h2).1
    simp [resolve, fetchByte, hb', State.setPc, nextPc, Form.mode, Mode.length, e2]
  | absolute k =>
    rw [hf] at hb
    obtain ⟨w, rfl, ho⟩ := hb
    rw [ho] at h2
    obtain ⟨hl, h3⟩ := (Memory.holds_cons _ _ _ _).1 h2
    have hh := ((Memory.holds_cons _ _ _ _).1 h3).1
    simp [resolve, fetchWord, fetchByte, hl, hh, State.setPc, nextPc, Form.mode, Mode.length, e3]
  | indirect k =>
    rw [hf] at hb
    obtain ⟨w, rfl, ho⟩ := hb
    rw [ho] at h2
    obtain ⟨hl, h3⟩ := (Memory.holds_cons _ _ _ _).1 h2
    have hh := ((Memory.holds_cons _ _ _ _).1 h3).1
    simp [resolve, fetchWord, fetchByte, hl, hh, State.setPc, nextPc, Form.mode, Mode.length, e3]

/-- A fetched instruction is encoded at `pc`, and the state it runs in differs in `pc` alone. -/
theorem fetchInstr_ok {s s1 : State} {i : Instr} (h : fetchInstr s = .ok (i, s1)) :
    s.mem.holds s.pc (encode i) = true ∧ s1 = { s with pc := s.pc + BitVec.ofNat 16 i.length } := by
  suffices hh : s.mem.holds s.pc (encode i) = true by
    refine ⟨hh, ?_⟩
    rw [fetchInstr_of_holds hh] at h
    simpa [eq_comm] using h
  cases hp : s.mem.read s.pc with
  | none => simp [fetchInstr, fetchByte_none hp] at h
  | some b =>
    cases hr : lookupOpcode b with
    | none => simp [fetchInstr, fetchByte_some hp, hr] at h
    | some r =>
      obtain ⟨rfl, he⟩ := lookupOpcode_some hr
      rw [fetchInstr_of_row hp hr] at h
      unfold Row.EncodesItsOpcode at he
      cases hf : r.form with
      | implied j =>
        simp only [hf, resolve, Except.ok.injEq, Prod.mk.injEq] at h he
        obtain ⟨rfl, -⟩ := h
        simp [he, hp]
      | immediate k =>
        simp only [hf, resolve] at h he
        split at h
        · cases h
        · rename_i c s2 hb
          obtain ⟨rfl, -⟩ := Prod.mk.inj (Except.ok.inj h)
          simp [he, hp, (fetchByte_eq_ok.1 hb).1]
      | zeroPage k =>
        simp only [hf, resolve] at h he
        split at h
        · cases h
        · rename_i c s2 hb
          obtain ⟨rfl, -⟩ := Prod.mk.inj (Except.ok.inj h)
          simp [he, hp, (fetchByte_eq_ok.1 hb).1]
      | absolute k =>
        simp only [hf, resolve] at h he
        split at h
        · cases h
        · rename_i c s2 hb
          obtain ⟨rfl, -⟩ := Prod.mk.inj (Except.ok.inj h)
          obtain ⟨lo, hi, h1, h2, rfl, -⟩ := fetchWord_eq_ok.1 hb
          simp [he, hp, h1, h2]
      | indirect k =>
        simp only [hf, resolve] at h he
        split at h
        · cases h
        · rename_i c s2 hb
          obtain ⟨rfl, -⟩ := Prod.mk.inj (Except.ok.inj h)
          obtain ⟨lo, hi, h1, h2, rfl, -⟩ := fetchWord_eq_ok.1 hb
          simp [he, hp, h1, h2]

/-- A Step of an encoded instruction is its effect with `pc` past it. -/
theorem step_of_holds {s : State} {i : Instr} (h : s.mem.holds s.pc (encode i) = true) :
    step s = exec i { s with pc := s.pc + BitVec.ofNat 16 i.length } := by
  simp [step, fetchInstr_of_holds h]

/-- Inversion of a Step: it ran the instruction encoded at `pc`, or the fetch faulted. -/
theorem step_cases (s : State) :
    (∃ i, s.mem.holds s.pc (encode i) = true ∧ step s = exec i { s with pc := s.pc + BitVec.ofNat 16 i.length }) ∨
    ∃ f, fetchInstr s = .error f ∧ step s = .fault f := by
  cases h : fetchInstr s with
  | ok r =>
    obtain ⟨i, s1⟩ := r
    obtain ⟨hh, -⟩ := fetchInstr_ok h
    exact .inl ⟨i, hh, step_of_holds hh⟩
  | error f => exact .inr ⟨f, rfl, by simp [step, h]⟩

/-- Inversion of a Step that completes. -/
theorem step_eq_next {s t : State} :
    step s = .next t ↔
      ∃ i, s.mem.holds s.pc (encode i) = true ∧ exec i { s with pc := s.pc + BitVec.ofNat 16 i.length } = .next t := by
  constructor
  · intro h
    rcases step_cases s with ⟨i, hh, hs⟩ | ⟨f, -, hs⟩
    · exact ⟨i, hh, hs ▸ h⟩
    · rw [hs] at h
      cases h
  · rintro ⟨i, hh, he⟩
    rw [step_of_holds hh, he]

/-- The faults of a fetch, in the order of R205: the opcode cell undefined, the byte illegal, the first operand cell
undefined, the second operand cell undefined. -/
theorem fetchInstr_error {s : State} {f : Fault} (h : fetchInstr s = .error f) :
    (s.mem.read s.pc = none ∧ f = .unmappedAddress s.pc) ∨
    (∃ b, s.mem.read s.pc = some b ∧ lookupOpcode b = none ∧ f = .illegalOpcode b s.pc) ∨
    (∃ b r, s.mem.read s.pc = some b ∧ lookupOpcode b = some r ∧ 2 ≤ r.form.mode.length ∧
      s.mem.read (s.pc + 1#16) = none ∧ f = .unmappedAddress (s.pc + 1#16)) ∨
    (∃ b r lo, s.mem.read s.pc = some b ∧ lookupOpcode b = some r ∧ r.form.mode.length = 3 ∧
      s.mem.read (s.pc + 1#16) = some lo ∧ s.mem.read (s.pc + 1#16 + 1#16) = none ∧
      f = .unmappedAddress (s.pc + 1#16 + 1#16)) := by
  cases hp : s.mem.read s.pc with
  | none =>
    simp only [fetchInstr, fetchByte_none hp, Except.error.injEq] at h
    exact .inl ⟨rfl, h.symm⟩
  | some b =>
    refine .inr ?_
    cases hr : lookupOpcode b with
    | none =>
      simp only [fetchInstr, fetchByte_some hp, hr, Except.error.injEq] at h
      exact .inl ⟨b, rfl, hr, h.symm⟩
    | some r =>
      refine .inr ?_
      rw [fetchInstr_of_row hp hr] at h
      have hbyte : ∀ (k : Byte → Instr),
          (match fetchByte { s with pc := s.pc + 1#16 } with
            | .error f => (.error f : Except Fault (Instr × State))
            | .ok (b, s1) => .ok (k b, s1)) = .error f →
          s.mem.read (s.pc + 1#16) = none ∧ f = .unmappedAddress (s.pc + 1#16) := by
        intro k hk
        split at hk
        · rename_i g hg
          obtain ⟨h1, h2⟩ := fetchByte_eq_error.1 hg
          exact ⟨h1, (Except.error.inj hk).symm.trans h2⟩
        · cases hk
      have hword : ∀ (k : Addr → Instr),
          (match fetchWord { s with pc := s.pc + 1#16 } with
            | .error f => (.error f : Except Fault (Instr × State))
            | .ok (w, s1) => .ok (k w, s1)) = .error f →
          (s.mem.read (s.pc + 1#16) = none ∧ f = .unmappedAddress (s.pc + 1#16)) ∨
          ∃ lo, s.mem.read (s.pc + 1#16) = some lo ∧ s.mem.read (s.pc + 1#16 + 1#16) = none ∧
            f = .unmappedAddress (s.pc + 1#16 + 1#16) := by
        intro k hk
        split at hk
        · rename_i g hg
          obtain rfl := Except.error.inj hk
          exact fetchWord_eq_error.1 hg
        · cases hk
      cases hf : r.form with
      | implied j => simp [hf, resolve] at h
      | immediate k =>
        rw [hf] at h
        obtain ⟨h1, h2⟩ := hbyte k h
        exact .inl ⟨b, r, rfl, hr, by simp [hf, Form.mode, Mode.length], h1, h2⟩
      | zeroPage k =>
        rw [hf] at h
        obtain ⟨h1, h2⟩ := hbyte k h
        exact .inl ⟨b, r, rfl, hr, by simp [hf, Form.mode, Mode.length], h1, h2⟩
      | absolute k =>
        rw [hf] at h
        rcases hword k h with ⟨h1, h2⟩ | ⟨lo, h1, h2, h3⟩
        · exact .inl ⟨b, r, rfl, hr, by simp [hf, Form.mode, Mode.length], h1, h2⟩
        · exact .inr ⟨b, r, lo, rfl, hr, by simp [hf, Form.mode, Mode.length], h1, h2, h3⟩
      | indirect k =>
        rw [hf] at h
        rcases hword k h with ⟨h1, h2⟩ | ⟨lo, h1, h2, h3⟩
        · exact .inl ⟨b, r, rfl, hr, by simp [hf, Form.mode, Mode.length], h1, h2⟩
        · exact .inr ⟨b, r, lo, rfl, hr, by simp [hf, Form.mode, Mode.length], h1, h2, h3⟩

/-! ## Runs -/

theorem core_run_zero (s : State) : Sys2Proof.core.run 0 s = .next s := rfl

theorem core_run_succ_of_next {s t : State} (n : Nat) (h : step s = .next t) :
    Sys2Proof.core.run (n + 1) s = Sys2Proof.core.run n t := by
  simp only [Host.Core.run, show Sys2Proof.core.step s = .next t from h]

theorem core_run_succ_of_fault {s : State} {f : Fault} (n : Nat) (h : step s = .fault f) :
    Sys2Proof.core.run (n + 1) s = .fault f := by
  simp only [Host.Core.run, show Sys2Proof.core.step s = .fault f from h]

end Sys2Proof.Machine
end

