-- ==== Sys2Proof/Tests/Slice0.lean ====
section
/-! SUPPORT. The model's own tests: well-formedness, decoding of words written out from the spec, one Step on small
states with the results of 95_test_vectors.md, and for each statement with hypotheses a state that meets them. -/

namespace Sys2Proof.Tests

open Sys2Proof Sys2Proof.Machine

/-! ## Helpers -/

/-- The default start registers of 95_test_vectors.md. -/
def r0 : Reg0 := { pc := 0x0200#16, s := 0xFD#8, a := 0x00#8, x := 0x00#8, y := 0x00#8, p := 0x24#8 }

/-- A state with the registers `r`, the bytes `code` from `pc` on and the cells `other`. -/
def startOf (b : Backing) (r : Reg0) (code : List Byte) (other : List Host.Cell) : State :=
  let s := seedCells (State.fresh r b) other
  s.setMem (s.mem.writeBytes s.pc code)

/-- The state after one Step, if it completes. -/
def after (s : State) : Option State :=
  match step s with
  | .next t => some t
  | .fault _ => none
  | .refused _ => none

/-- The fault of one Step, if it faults. -/
def faultOf (s : State) : Option Fault :=
  match step s with
  | .next _ => none
  | .fault f => some f
  | .refused _ => none

/-- The registers and `clk` after one Step. -/
def endOf (s : State) : Option (Reg0 × Nat) :=
  (after s).map fun t => ({ pc := t.pc, s := t.sp, a := t.a, x := t.x, y := t.y, p := t.p }, t.clk)

/-- A cell after one Step. -/
def cellAfter (s : State) (ea : Addr) : Option Byte := (after s).bind fun t => t.mem.read ea

theorem next_of_after {s : State} (h : (after s).isSome = true) : ∃ t, step s = .next t := by
  unfold after at h
  split at h
  · exact ⟨_, by assumption⟩
  · cases h
  · cases h

theorem fault_of_faultOf {s : State} {f : Fault} (h : faultOf s = some f) : step s = .fault f := by
  unfold faultOf at h
  split at h
  · cases h
  · rw [← Option.some.inj h]
    assumption
  · cases h

/-! ## Well-formedness: what the checks refuse -/

/-- R231, R50: 65536 is no address, 65535 is one. -/
theorem test_launch_refuses_address :
    Launch.wellFormed { regs := r0, backing := .sparse, ram := [(65535, 1#8), (65536, 0#8)] } = false ∧
    Launch.wellFormed { regs := r0, backing := .sparse, ram := [(65535, 1#8), (0, 0#8)] } = true ∧
    launch { regs := r0, backing := .sparse, ram := [(65536, 0#8)] } = none := by decide

/-- R85, R81: an illegal opcode, an operand missing, a byte too many, nothing at all; and a whole instruction. -/
theorem test_encodesOne_refuses :
    encodesOne [0x02#8] = false ∧ encodesOne [0xA9#8] = false ∧ encodesOne [0x18#8, 0x00#8] = false ∧
    encodesOne [] = false ∧ encodesOne [0xA9#8, 0x00#8] = true := by decide

/-- The canonical form refuses cells out of order, listed twice, outside the space, or equal to an unlisted one. -/
theorem test_memory_wf_refuses :
    Memory.wf { backing := .sparse, cells := [(2, 1#8), (1, 1#8)] } = false ∧
    Memory.wf { backing := .sparse, cells := [(1, 1#8), (1, 2#8)] } = false ∧
    Memory.wf { backing := .sparse, cells := [(65536, 1#8)] } = false ∧
    Memory.wf { backing := .dense, cells := [(1, 0#8)] } = false ∧
    Memory.wf { backing := .sparse, cells := [(1, 0#8), (65535, 0#8)] } = true := by decide

/-- R86: no instruction is ill-formed; the instruction with every operand bit set is as well formed as any. -/
theorem test_every_operand_is_legal :
    (Instr.jmpInd 0xFFFF#16).wellFormed = true ∧ (Instr.ldaImm 0xFF#8).wellFormed = true := by decide

/-! ## Decoding: every opcode byte written out bit by bit from R84, operands from R81 and R83 -/

theorem test_decode_flags :
    decode [0b00011000#8] = .instr .clc [] ∧
    decode [0b00111000#8] = .instr .sec [] ∧
    decode [0b01011000#8] = .instr .cli [] ∧
    decode [0b01111000#8] = .instr .sei [] ∧
    decode [0b10111000#8] = .instr .clv [] ∧
    decode [0b11011000#8] = .instr .cld [] ∧
    decode [0b11111000#8] = .instr .sed [] := by decide

theorem test_decode_loads :
    decode [0b10101001#8, 0xC5#8] = .instr (.ldaImm 0xC5#8) [] ∧
    decode [0b10100101#8, 0xC5#8] = .instr (.ldaZp 0xC5#8) [] ∧
    decode [0b10101101#8, 0x34#8, 0x12#8] = .instr (.ldaAbs 0x1234#16) [] ∧
    decode [0b10100010#8, 0xC5#8] = .instr (.ldxImm 0xC5#8) [] ∧
    decode [0b10100110#8, 0xC5#8] = .instr (.ldxZp 0xC5#8) [] ∧
    decode [0b10101110#8, 0x34#8, 0x12#8] = .instr (.ldxAbs 0x1234#16) [] ∧
    decode [0b10100000#8, 0xC5#8] = .instr (.ldyImm 0xC5#8) [] ∧
    decode [0b10100100#8, 0xC5#8] = .instr (.ldyZp 0xC5#8) [] ∧
    decode [0b10101100#8, 0x34#8, 0x12#8] = .instr (.ldyAbs 0x1234#16) [] := by decide

theorem test_decode_stores :
    decode [0b10000101#8, 0xC5#8] = .instr (.staZp 0xC5#8) [] ∧
    decode [0b10001101#8, 0x34#8, 0x12#8] = .instr (.staAbs 0x1234#16) [] ∧
    decode [0b10000110#8, 0xC5#8] = .instr (.stxZp 0xC5#8) [] ∧
    decode [0b10001110#8, 0x34#8, 0x12#8] = .instr (.stxAbs 0x1234#16) [] ∧
    decode [0b10000100#8, 0xC5#8] = .instr (.styZp 0xC5#8) [] ∧
    decode [0b10001100#8, 0x34#8, 0x12#8] = .instr (.styAbs 0x1234#16) [] := by decide

theorem test_decode_transfers :
    decode [0b10101010#8] = .instr .tax [] ∧
    decode [0b10001010#8] = .instr .txa [] ∧
    decode [0b10101000#8] = .instr .tay [] ∧
    decode [0b10011000#8] = .instr .tya [] ∧
    decode [0b10111010#8] = .instr .tsx [] ∧
    decode [0b10011010#8] = .instr .txs [] := by decide

theorem test_decode_inc_dec :
    decode [0b11101000#8] = .instr .inx [] ∧
    decode [0b11001000#8] = .instr .iny [] ∧
    decode [0b11001010#8] = .instr .dex [] ∧
    decode [0b10001000#8] = .instr .dey [] ∧
    decode [0b11000110#8, 0xC5#8] = .instr (.decZp 0xC5#8) [] ∧
    decode [0b11001110#8, 0x34#8, 0x12#8] = .instr (.decAbs 0x1234#16) [] := by decide

theorem test_decode_logical :
    decode [0b00101001#8, 0xC5#8] = .instr (.andImm 0xC5#8) [] ∧
    decode [0b00100101#8, 0xC5#8] = .instr (.andZp 0xC5#8) [] ∧
    decode [0b00101101#8, 0x34#8, 0x12#8] = .instr (.andAbs 0x1234#16) [] := by decide

theorem test_decode_stack :
    decode [0b01001000#8] = .instr .pha [] ∧
    decode [0b00001000#8] = .instr .php [] ∧
    decode [0b01101000#8] = .instr .pla [] ∧
    decode [0b00101000#8] = .instr .plp [] := by decide

theorem test_decode_nop_jump :
    decode [0b11101010#8] = .instr .nop [] ∧
    decode [0b01001100#8, 0x34#8, 0x12#8] = .instr (.jmpAbs 0x1234#16) [] ∧
    decode [0b01101100#8, 0x34#8, 0x12#8] = .instr (.jmpInd 0x1234#16) [] := by decide

/-- Table words: bit 0 is the least significant bit of the first byte, and bits the table does not give are 0. -/
theorem test_decodeTableWord :
    decodeTableWord 8 0x18 = some .clc ∧ decodeTableWord 16 0x80A9 = some (.ldaImm 0x80#8) ∧
    decodeTableWord 24 0x30FF6C = some (.jmpInd 0x30FF#16) ∧ decodeTableWord 8 0xAD = some (.ldaAbs 0x0000#16) ∧
    decodeTableWord 8 0x02 = none := by decide

/-- R231: of two pairs for one address the later one wins. -/
theorem test_launch_last_pair_wins :
    (launch { regs := r0, backing := .sparse, ram := [(16, 1#8), (16, 2#8)] }).bind (fun s => s.mem.read 16#16) =
      some 2#8 := by decide

/-- R242: a host write between Steps changes the named register or cell. -/
theorem test_hostWrite :
    (State.reset.hostWrite (.p 0xFF#8)).p = 0xFF#8 ∧ (State.reset.hostWrite (.reg .sp 0x80#8)).sp = 0x80#8 ∧
    (State.reset.hostWrite (.cell 0x0010#16 0x01#8)).mem.read 0x0010#16 = some 0x01#8 ∧
    (State.reset.hostWrite (.pc 0x1234#16)).pc = 0x1234#16 := by decide

/-- The first Step after reset runs the placed word: `LDA #$80` (S8.1's result). -/
theorem test_withFetchWord :
    endOf (State.reset.withFetchWord 16 0x80A9) = some ({ r0 with pc := 0x0202#16, a := 0x80#8, p := 0xA4#8 }, 2) := by
  decide

/-- A placed word wraps at the top of memory: `JMP $5678` at 0xFFFE (B7.4). -/
theorem test_withFetchWord_wraps :
    endOf ((State.reset.setPc 0xFFFE#16).withFetchWord 24 0x56784C) = some ({ r0 with pc := 0x5678#16 }, 3) := by
  decide

/-- R231 with vector S9.1: the registers and the listed cell are compared, and a wrong cell or flag fails. -/
theorem test_conforms :
    let initial : Launch := { regs := r0, backing := .sparse, ram := [(0x0200, 0xC6#8), (0x0201, 0x10#8), (16, 0#8)] }
    let final : Reg0 := { r0 with pc := 0x0202#16, p := 0xA4#8 }
    conforms initial { initial with regs := final, ram := [(16, 0xFF#8)] } = true ∧
    conforms initial { initial with regs := final, ram := [(16, 0xFE#8)] } = false ∧
    conforms initial { initial with regs := { final with p := 0x24#8 }, ram := [] } = false := by decide

/-- R231 with vector B8.1, whose `final` is its start; and log 10 on a `final` that names no cell or one cell twice. -/
theorem test_conforms_fault_and_odd_finals :
    let initial : Launch := { regs := r0, backing := .sparse, ram := [(0x0200, 0x00#8)] }
    conforms initial initial = true ∧
    conforms initial { initial with regs := { r0 with pc := 0x0201#16 } } = false ∧
    conforms initial { initial with ram := [(0x10200, 0x00#8)] } = false ∧
    conforms initial { initial with ram := [(0x0200, 0x01#8), (0x0200, 0x00#8)] } = false := by decide

/-! ## Flag set and clear (one Step each; expected results from the spec's vectors) -/

/-- 95_test_vectors.md B1.2. -/
theorem test_clc :
    endOf (startOf .sparse { r0 with p := 0xFF#8 } [0x18#8] []) =
      some ({ r0 with p := 0xFE#8, pc := 0x0201#16 }, 2) := by decide

/-- 95_test_vectors.md B1.3. -/
theorem test_sec :
    endOf (startOf .sparse { r0 with p := 0x00#8 } [0x38#8] []) =
      some ({ r0 with p := 0x01#8, pc := 0x0201#16 }, 2) := by decide

/-- 95_test_vectors.md B1.15: pc wraps to 0x0000. -/
theorem test_sec_at_top :
    endOf (startOf .sparse { r0 with pc := 0xFFFF#16 } [0x38#8] []) =
      some ({ r0 with pc := 0x0000#16, p := 0x25#8 }, 2) := by decide

/-- 95_test_vectors.md B1.6. -/
theorem test_cli :
    endOf (startOf .sparse { r0 with p := 0xFF#8 } [0x58#8] []) =
      some ({ r0 with p := 0xFB#8, pc := 0x0201#16 }, 2) := by decide

/-- 95_test_vectors.md B1.7. -/
theorem test_sei :
    endOf (startOf .sparse { r0 with p := 0x00#8 } [0x78#8] []) =
      some ({ r0 with p := 0x04#8, pc := 0x0201#16 }, 2) := by decide

/-- 95_test_vectors.md B1.10. -/
theorem test_clv :
    endOf (startOf .sparse { r0 with p := 0xFF#8 } [0xB8#8] []) =
      some ({ r0 with p := 0xBF#8, pc := 0x0201#16 }, 2) := by decide

/-- 95_test_vectors.md B1.12. -/
theorem test_cld :
    endOf (startOf .sparse { r0 with p := 0xFF#8 } [0xD8#8] []) =
      some ({ r0 with p := 0xF7#8, pc := 0x0201#16 }, 2) := by decide

/-- 95_test_vectors.md B1.13. -/
theorem test_sed :
    endOf (startOf .sparse { r0 with p := 0x00#8 } [0xF8#8] []) =
      some ({ r0 with p := 0x08#8, pc := 0x0201#16 }, 2) := by decide

/-! ## Loads and stores (one Step each; expected results from the spec's vectors) -/

/-- 95_test_vectors.md B2.3: Z and N cleared, C V D I B G kept. -/
theorem test_lda_imm_keeps_other_flags :
    endOf (startOf .sparse { r0 with p := 0xFF#8 } [0xA9#8, 0x01#8] []) =
      some ({ r0 with p := 0x7D#8, pc := 0x0202#16, a := 0x01#8 }, 2) := by decide

/-- 95_test_vectors.md B2.4: operand fetched from 0x0000. -/
theorem test_lda_imm_across_top :
    endOf (startOf .sparse { r0 with pc := 0xFFFF#16 } [0xA9#8, 0x00#8] []) =
      some ({ r0 with pc := 0x0001#16, p := 0x26#8 }, 2) := by decide

/-- 95_test_vectors.md B2.5: ea=0x00FF, not 0x01FF. -/
theorem test_lda_zp :
    endOf (startOf .sparse r0 [0xA5#8, 0xFF#8] [(0x00FF, 0x80#8), (0x01FF, 0x11#8)]) =
      some ({ r0 with pc := 0x0202#16, a := 0x80#8, p := 0xA4#8 }, 3) := by decide

/-- 95_test_vectors.md B2.8: data cell undefined; pc not advanced. -/
theorem test_lda_abs_undefined :
    faultOf (startOf .sparse { r0 with a := 0x11#8 } [0xAD#8, 0x34#8, 0x12#8] []) =
      some (.unmappedAddress 0x1234#16) := by decide

/-- 95_test_vectors.md B2.9: same, dense backing: reads 0. -/
theorem test_lda_abs_dense :
    endOf (startOf .dense { r0 with a := 0x11#8 } [0xAD#8, 0x34#8, 0x12#8] []) =
      some ({ r0 with a := 0x00#8, pc := 0x0203#16, p := 0x26#8 }, 4) := by decide

/-- 95_test_vectors.md B2.17. -/
theorem test_ldx_imm :
    endOf (startOf .sparse { r0 with x := 0x80#8 } [0xA2#8, 0x00#8] []) =
      some ({ r0 with x := 0x00#8, pc := 0x0202#16, p := 0x26#8 }, 2) := by decide

/-- 95_test_vectors.md B2.18. -/
theorem test_ldx_zp :
    endOf (startOf .sparse r0 [0xA6#8, 0x00#8] [(0x0000, 0xFF#8)]) =
      some ({ r0 with pc := 0x0202#16, x := 0xFF#8, p := 0xA4#8 }, 3) := by decide

/-- 95_test_vectors.md B2.19: reads the stack page as data. -/
theorem test_ldx_abs :
    endOf (startOf .sparse r0 [0xAE#8, 0xFD#8, 0x01#8] [(0x01FD, 0x42#8)]) =
      some ({ r0 with pc := 0x0203#16, x := 0x42#8 }, 4) := by decide

/-- 95_test_vectors.md B2.20. -/
theorem test_ldy_imm :
    endOf (startOf .sparse r0 [0xA0#8, 0x80#8] []) =
      some ({ r0 with pc := 0x0202#16, y := 0x80#8, p := 0xA4#8 }, 2) := by decide

/-- 95_test_vectors.md B2.21. -/
theorem test_ldy_zp :
    endOf (startOf .sparse { r0 with y := 0x55#8, p := 0xA4#8 } [0xA4#8, 0x10#8] [(0x0010, 0x00#8)]) =
      some ({ r0 with y := 0x00#8, p := 0x26#8, pc := 0x0202#16 }, 3) := by decide

/-- 95_test_vectors.md B2.22. -/
theorem test_ldy_abs :
    endOf (startOf .sparse r0 [0xAC#8, 0x00#8, 0x03#8] [(0x0300, 0x7F#8)]) =
      some ({ r0 with pc := 0x0203#16, y := 0x7F#8 }, 4) := by decide

/-- 95_test_vectors.md B2.12: store into an undefined cell; flags unchanged. -/
theorem test_sta_zp_undefined_cell :
    endOf (startOf .sparse { r0 with a := 0x99#8, p := 0xA5#8 } [0x85#8, 0x10#8] []) =
      some ({ r0 with a := 0x99#8, p := 0xA5#8, pc := 0x0202#16 }, 3) ∧
    cellAfter (startOf .sparse { r0 with a := 0x99#8, p := 0xA5#8 } [0x85#8, 0x10#8] []) 0x0010#16 =
      some 0x99#8 := by decide

/-- 95_test_vectors.md B2.13: ea=0x00FF; storing 0 does not set Zero. -/
theorem test_sta_zp_zero :
    endOf (startOf .sparse r0 [0x85#8, 0xFF#8] [(0x00FF, 0x77#8)]) = some ({ r0 with pc := 0x0202#16 }, 3) ∧
    cellAfter (startOf .sparse r0 [0x85#8, 0xFF#8] [(0x00FF, 0x77#8)]) 0x00FF#16 = some 0x00#8 := by decide

/-- 95_test_vectors.md B2.14: overwrites its own operand byte after using it. -/
theorem test_sta_abs_own_operand :
    endOf (startOf .sparse { r0 with a := 0xEA#8 } [0x8D#8, 0x01#8, 0x02#8] []) =
      some ({ r0 with a := 0xEA#8, pc := 0x0203#16 }, 4) ∧
    cellAfter (startOf .sparse { r0 with a := 0xEA#8 } [0x8D#8, 0x01#8, 0x02#8] []) 0x0201#16 =
      some 0xEA#8 := by decide

/-- 95_test_vectors.md B2.16: instruction straddles the top of memory. -/
theorem test_sta_abs_across_top :
    endOf (startOf .sparse { r0 with pc := 0xFFFE#16, a := 0x42#8 } [0x8D#8, 0x00#8, 0x03#8] []) =
      some ({ r0 with pc := 0x0001#16, a := 0x42#8 }, 4) ∧
    cellAfter (startOf .sparse { r0 with pc := 0xFFFE#16, a := 0x42#8 } [0x8D#8, 0x00#8, 0x03#8] []) 0x0300#16 =
      some 0x42#8 := by decide

/-- 95_test_vectors.md B2.23. -/
theorem test_stx_zp :
    endOf (startOf .sparse { r0 with x := 0xFF#8 } [0x86#8, 0x00#8] []) =
      some ({ r0 with x := 0xFF#8, pc := 0x0202#16 }, 3) ∧
    cellAfter (startOf .sparse { r0 with x := 0xFF#8 } [0x86#8, 0x00#8] []) 0x0000#16 = some 0xFF#8 := by decide

/-- 95_test_vectors.md B2.24: store into the stack page; sp unchanged. -/
theorem test_stx_abs :
    endOf (startOf .sparse { r0 with x := 0x5A#8 } [0x8E#8, 0x00#8, 0x01#8] []) =
      some ({ r0 with x := 0x5A#8, pc := 0x0203#16 }, 4) ∧
    cellAfter (startOf .sparse { r0 with x := 0x5A#8 } [0x8E#8, 0x00#8, 0x01#8] []) 0x0100#16 =
      some 0x5A#8 := by decide

/-- 95_test_vectors.md B2.25. -/
theorem test_sty_zp :
    endOf (startOf .sparse { r0 with y := 0x80#8, p := 0x26#8 } [0x84#8, 0x80#8] []) =
      some ({ r0 with y := 0x80#8, p := 0x26#8, pc := 0x0202#16 }, 3) ∧
    cellAfter (startOf .sparse { r0 with y := 0x80#8, p := 0x26#8 } [0x84#8, 0x80#8] []) 0x0080#16 =
      some 0x80#8 := by decide

/-- 95_test_vectors.md B2.26: overwrites a defined cell. -/
theorem test_sty_abs :
    endOf (startOf .sparse { r0 with y := 0x01#8 } [0x8C#8, 0x34#8, 0x12#8] [(0x1234, 0xFF#8)]) =
      some ({ r0 with y := 0x01#8, pc := 0x0203#16 }, 4) ∧
    cellAfter (startOf .sparse { r0 with y := 0x01#8 } [0x8C#8, 0x34#8, 0x12#8] [(0x1234, 0xFF#8)]) 0x1234#16 =
      some 0x01#8 := by decide

/-! ## Transfers (one Step each; expected results from the spec's vectors) -/

/-- 95_test_vectors.md B3.2. -/
theorem test_tax :
    endOf (startOf .sparse { r0 with a := 0x80#8 } [0xAA#8] []) =
      some ({ r0 with a := 0x80#8, pc := 0x0201#16, x := 0x80#8, p := 0xA4#8 }, 2) := by decide

/-- 95_test_vectors.md B3.4: C, V, I kept. -/
theorem test_txa :
    endOf (startOf .sparse { r0 with a := 0x11#8, p := 0xE5#8 } [0x8A#8] []) =
      some ({ r0 with a := 0x00#8, p := 0x67#8, pc := 0x0201#16 }, 2) := by decide

/-- 95_test_vectors.md B3.5. -/
theorem test_tay :
    endOf (startOf .sparse { r0 with a := 0xFF#8 } [0xA8#8] []) =
      some ({ r0 with a := 0xFF#8, pc := 0x0201#16, y := 0xFF#8, p := 0xA4#8 }, 2) := by decide

/-- 95_test_vectors.md B3.8. -/
theorem test_tya :
    endOf (startOf .sparse { r0 with a := 0x01#8, y := 0x80#8 } [0x98#8] []) =
      some ({ r0 with a := 0x80#8, y := 0x80#8, pc := 0x0201#16, p := 0xA4#8 }, 2) := by decide

/-- 95_test_vectors.md B3.9. -/
theorem test_tsx :
    endOf (startOf .sparse { r0 with s := 0xFF#8 } [0xBA#8] []) =
      some ({ r0 with s := 0xFF#8, pc := 0x0201#16, x := 0xFF#8, p := 0xA4#8 }, 2) := by decide

/-- 95_test_vectors.md B3.10. -/
theorem test_tsx_zero :
    endOf (startOf .sparse { r0 with s := 0x00#8, x := 0x55#8 } [0xBA#8] []) =
      some ({ r0 with s := 0x00#8, x := 0x00#8, pc := 0x0201#16, p := 0x26#8 }, 2) := by decide

/-- 95_test_vectors.md B3.11: TXS: Zero not set. -/
theorem test_txs_zero :
    endOf (startOf .sparse r0 [0x9A#8] []) = some ({ r0 with pc := 0x0201#16, s := 0x00#8 }, 2) := by decide

/-- 95_test_vectors.md B3.12: TXS: Negative not set, Zero not cleared. -/
theorem test_txs_negative :
    endOf (startOf .sparse { r0 with x := 0x80#8, p := 0x26#8 } [0x9A#8] []) =
      some ({ r0 with x := 0x80#8, p := 0x26#8, pc := 0x0201#16, s := 0x80#8 }, 2) := by decide

/-! ## Increment and decrement (one Step each; expected results from the spec's vectors) -/

/-- 95_test_vectors.md B4.1: wrap; Carry kept. -/
theorem test_inx_wrap :
    endOf (startOf .sparse { r0 with x := 0xFF#8, p := 0x25#8 } [0xE8#8] []) =
      some ({ r0 with x := 0x00#8, p := 0x27#8, pc := 0x0201#16 }, 2) := by decide

/-- 95_test_vectors.md B4.2: Overflow not set. -/
theorem test_inx_sign :
    endOf (startOf .sparse { r0 with x := 0x7F#8 } [0xE8#8] []) =
      some ({ r0 with x := 0x80#8, pc := 0x0201#16, p := 0xA4#8 }, 2) := by decide

/-- 95_test_vectors.md B4.4. -/
theorem test_iny :
    endOf (startOf .sparse { r0 with y := 0xFF#8 } [0xC8#8] []) =
      some ({ r0 with y := 0x00#8, pc := 0x0201#16, p := 0x26#8 }, 2) := by decide

/-- 95_test_vectors.md B4.6: wrap. -/
theorem test_dex_wrap :
    endOf (startOf .sparse r0 [0xCA#8] []) =
      some ({ r0 with pc := 0x0201#16, x := 0xFF#8, p := 0xA4#8 }, 2) := by decide

/-- 95_test_vectors.md B4.8: Overflow kept. -/
theorem test_dex_sign :
    endOf (startOf .sparse { r0 with x := 0x80#8, p := 0xE4#8 } [0xCA#8] []) =
      some ({ r0 with x := 0x7F#8, p := 0x64#8, pc := 0x0201#16 }, 2) := by decide

/-- 95_test_vectors.md B4.9. -/
theorem test_dey :
    endOf (startOf .sparse r0 [0x88#8] []) =
      some ({ r0 with pc := 0x0201#16, y := 0xFF#8, p := 0xA4#8 }, 2) := by decide

/-- 95_test_vectors.md S9.1. -/
theorem test_dec_zp :
    endOf (startOf .sparse r0 [0xC6#8, 0x10#8] [(0x0010, 0x00#8)]) =
      some ({ r0 with pc := 0x0202#16, p := 0xA4#8 }, 5) ∧
    cellAfter (startOf .sparse r0 [0xC6#8, 0x10#8] [(0x0010, 0x00#8)]) 0x0010#16 = some 0xFF#8 := by decide

/-- 95_test_vectors.md B4.14: cell undefined: no write. -/
theorem test_dec_zp_undefined :
    faultOf (startOf .sparse r0 [0xC6#8, 0x10#8] []) = some (.unmappedAddress 0x0010#16) := by decide

/-- 95_test_vectors.md B4.17: decrements its own opcode byte: 0xCE becomes 0xCD (illegal) for the next fetch. -/
theorem test_dec_abs_own_opcode :
    endOf (startOf .sparse r0 [0xCE#8, 0x00#8, 0x02#8] []) = some ({ r0 with pc := 0x0203#16, p := 0xA4#8 }, 6) ∧
    cellAfter (startOf .sparse r0 [0xCE#8, 0x00#8, 0x02#8] []) 0x0200#16 = some 0xCD#8 := by decide

/-- 95_test_vectors.md B4.18: decrements its own low operand byte after using it: ea was 0x0201. -/
theorem test_dec_abs_own_operand :
    endOf (startOf .sparse r0 [0xCE#8, 0x01#8, 0x02#8] []) = some ({ r0 with pc := 0x0203#16, p := 0x26#8 }, 6) ∧
    cellAfter (startOf .sparse r0 [0xCE#8, 0x01#8, 0x02#8] []) 0x0201#16 = some 0x00#8 := by decide

/-! ## Logical (one Step each; expected results from the spec's vectors) -/

/-- 95_test_vectors.md B5.2. -/
theorem test_and_imm_negative :
    endOf (startOf .sparse { r0 with a := 0xFF#8 } [0x29#8, 0x80#8] []) =
      some ({ r0 with a := 0x80#8, pc := 0x0202#16, p := 0xA4#8 }, 2) := by decide

/-- 95_test_vectors.md B5.5: a unchanged; N cleared; C V kept. -/
theorem test_and_imm_keeps_flags :
    endOf (startOf .sparse { r0 with a := 0x7F#8, p := 0xE5#8 } [0x29#8, 0xFF#8] []) =
      some ({ r0 with a := 0x7F#8, p := 0x65#8, pc := 0x0202#16 }, 2) := by decide

/-- 95_test_vectors.md B5.6. -/
theorem test_and_zp :
    endOf (startOf .sparse { r0 with a := 0xF0#8 } [0x25#8, 0x10#8] [(0x0010, 0x9F#8)]) =
      some ({ r0 with a := 0x90#8, pc := 0x0202#16, p := 0xA4#8 }, 3) := by decide

/-- 95_test_vectors.md B5.7: cell undefined. -/
theorem test_and_zp_undefined :
    faultOf (startOf .sparse { r0 with a := 0xF0#8 } [0x25#8, 0x10#8] []) =
      some (.unmappedAddress 0x0010#16) := by decide

/-- 95_test_vectors.md B5.8: operand is its own opcode byte 0x2D. -/
theorem test_and_abs_own_opcode :
    endOf (startOf .sparse { r0 with a := 0x0F#8 } [0x2D#8, 0x00#8, 0x02#8] []) =
      some ({ r0 with a := 0x0D#8, pc := 0x0203#16 }, 4) := by decide

/-- 95_test_vectors.md B5.9. -/
theorem test_and_abs :
    endOf (startOf .sparse { r0 with a := 0xC3#8 } [0x2D#8, 0xFF#8, 0x01#8] [(0x01FF, 0x81#8)]) =
      some ({ r0 with a := 0x81#8, pc := 0x0203#16, p := 0xA4#8 }, 4) := by decide

/-! ## Stack (one Step each; expected results from the spec's vectors) -/

/-- 95_test_vectors.md B6.1: writes 0x0100, sp wraps to 0xFF. -/
theorem test_pha_wrap :
    endOf (startOf .sparse { r0 with s := 0x00#8, a := 0x7E#8 } [0x48#8] []) =
      some ({ r0 with s := 0xFF#8, a := 0x7E#8, pc := 0x0201#16 }, 3) ∧
    cellAfter (startOf .sparse { r0 with s := 0x00#8, a := 0x7E#8 } [0x48#8] []) 0x0100#16 = some 0x7E#8 := by decide

/-- 95_test_vectors.md B6.2: pushing 0 sets no flag. -/
theorem test_pha_zero :
    endOf (startOf .sparse { r0 with s := 0xFF#8 } [0x48#8] []) = some ({ r0 with s := 0xFE#8, pc := 0x0201#16 }, 3) ∧
    cellAfter (startOf .sparse { r0 with s := 0xFF#8 } [0x48#8] []) 0x01FF#16 = some 0x00#8 := by decide

/-- 95_test_vectors.md S4.1: live bit 4 clear; pushed 0x34. -/
theorem test_php_forces_break :
    endOf (startOf .sparse r0 [0x08#8] []) = some ({ r0 with pc := 0x0201#16, s := 0xFC#8 }, 3) ∧
    cellAfter (startOf .sparse r0 [0x08#8] []) 0x01FD#16 = some 0x34#8 := by decide

/-- 95_test_vectors.md B6.6: pushed byte 0xFF; live bit 4 stays 0. -/
theorem test_php_live_p_kept :
    endOf (startOf .sparse { r0 with s := 0x01#8, p := 0xEF#8 } [0x08#8] []) =
      some ({ r0 with s := 0x00#8, p := 0xEF#8, pc := 0x0201#16 }, 3) ∧
    cellAfter (startOf .sparse { r0 with s := 0x01#8, p := 0xEF#8 } [0x08#8] []) 0x0101#16 = some 0xFF#8 := by decide

/-- 95_test_vectors.md B6.7: sp wraps to 0x00; reads 0x0100, not 0x0200. -/
theorem test_pla_wrap :
    endOf (startOf .sparse { r0 with s := 0xFF#8, a := 0x11#8 } [0x68#8] [(0x0100, 0x00#8)]) =
      some ({ r0 with s := 0x00#8, a := 0x00#8, pc := 0x0201#16, p := 0x26#8 }, 4) := by decide

/-- 95_test_vectors.md B6.9: cell undefined: sp not incremented. -/
theorem test_pla_undefined :
    faultOf (startOf .sparse { r0 with s := 0xFC#8, a := 0x11#8 } [0x68#8] []) =
      some (.unmappedAddress 0x01FD#16) := by decide

/-- 95_test_vectors.md B6.12: live bits 4, 5 kept. -/
theorem test_plp_keeps_4_and_5 :
    endOf (startOf .sparse { r0 with s := 0xFC#8, p := 0xFF#8 } [0x28#8] [(0x01FD, 0x00#8)]) =
      some ({ r0 with s := 0xFD#8, p := 0x30#8, pc := 0x0201#16 }, 4) := by decide

/-- 95_test_vectors.md B6.15: wrap. -/
theorem test_plp_wrap :
    endOf (startOf .sparse { r0 with s := 0xFF#8, p := 0x34#8 } [0x28#8] [(0x0100, 0x01#8)]) =
      some ({ r0 with s := 0x00#8, p := 0x31#8, pc := 0x0201#16 }, 4) := by decide

/-! ## No-op and jumps (one Step each; expected results from the spec's vectors) -/

/-- 95_test_vectors.md B7.1. -/
theorem test_nop :
    endOf (startOf .sparse { r0 with s := 0x00#8, a := 0x12#8, x := 0x34#8, y := 0x56#8, p := 0xE5#8 } [0xEA#8] []) =
      some ({ r0 with s := 0x00#8, a := 0x12#8, x := 0x34#8, y := 0x56#8, p := 0xE5#8, pc := 0x0201#16 }, 2) := by decide

/-- 95_test_vectors.md S6.1. -/
theorem test_jmp_abs :
    endOf (startOf .sparse r0 [0x4C#8, 0x34#8, 0x12#8] []) = some ({ r0 with pc := 0x1234#16 }, 3) := by decide

/-- 95_test_vectors.md B7.5: target 0xFFFF undefined: the jump still completes. -/
theorem test_jmp_abs_undefined_target :
    endOf (startOf .sparse r0 [0x4C#8, 0xFF#8, 0xFF#8] []) = some ({ r0 with pc := 0xFFFF#16 }, 3) := by decide

/-- 95_test_vectors.md S5.1. -/
theorem test_jmp_ind_page_bug :
    endOf (startOf .sparse r0 [0x6C#8, 0xFF#8, 0x30#8] [(0x3000, 0x50#8), (0x30FF, 0x80#8), (0x3100, 0x99#8)]) =
      some ({ r0 with pc := 0x5080#16 }, 5) := by decide

/-- 95_test_vectors.md B7.13: ptr' cell 0x3000 undefined; 0x3100 is not consulted. -/
theorem test_jmp_ind_high_undefined :
    faultOf (startOf .sparse r0 [0x6C#8, 0xFF#8, 0x30#8] [(0x30FF, 0x80#8), (0x3100, 0x99#8)]) =
      some (.unmappedAddress 0x3000#16) := by decide

/-! ## Faults of the fetch (one Step each; expected results from the spec's vectors) -/

/-- 95_test_vectors.md B8.5: payload pc is 0xFFFF, not 0x0000. -/
theorem test_illegal_at_top :
    faultOf (startOf .sparse { r0 with pc := 0xFFFF#16 } [0x02#8] []) =
      some (.illegalOpcode 0x02#8 0xFFFF#16) := by decide

/-- 95_test_vectors.md B8.1: BRK on a MOS 6502; illegal here. -/
theorem test_illegal_brk :
    faultOf (startOf .sparse r0 [0x00#8] []) = some (.illegalOpcode 0x00#8 0x0200#16) := by decide

/-- 95_test_vectors.md B8.6: opcode cell undefined: UnmappedAddress, not IllegalOpcode. -/
theorem test_opcode_undefined : faultOf (startOf .sparse r0 [] []) = some (.unmappedAddress 0x0200#16) := by decide

/-- 95_test_vectors.md B8.8: dense backing: the opcode cell reads 0x00, which is illegal. -/
theorem test_opcode_dense_zero :
    faultOf (startOf .dense r0 [] []) = some (.illegalOpcode 0x00#8 0x0200#16) := by decide

/-- 95_test_vectors.md B8.9: both operand bytes undefined: the low one (0x0201) is reported. -/
theorem test_operand_low_first :
    faultOf (startOf .sparse r0 [0xAD#8] []) = some (.unmappedAddress 0x0201#16) := by decide

/-- 95_test_vectors.md B2.10: high operand byte undefined. -/
theorem test_operand_high :
    faultOf (startOf .sparse { r0 with a := 0x11#8 } [0xAD#8, 0x34#8] []) =
      some (.unmappedAddress 0x0202#16) := by decide

/-! ## The transactions of a Step -/

/-- 95_test_vectors.md S5.1, the column of memory transactions. -/
theorem test_accesses_jmp_ind :
    stepAccesses (startOf .sparse r0 [0x6C#8, 0xFF#8, 0x30#8] [(0x3000, 0x50#8), (0x30FF, 0x80#8), (0x3100, 0x99#8)]) =
      [.read 0x0200#16, .read 0x0201#16, .read 0x0202#16, .read 0x30FF#16, .read 0x3000#16] := by decide

/-- 95_test_vectors.md S9.1, the column of memory transactions. -/
theorem test_accesses_dec_zp :
    stepAccesses (startOf .sparse r0 [0xC6#8, 0x10#8] [(0x0010, 0x00#8)]) =
      [.read 0x0200#16, .read 0x0201#16, .read 0x0010#16, .write 0x0010#16 0xFF#8] := by decide

/-- 95_test_vectors.md B6.7, the column of memory transactions. -/
theorem test_accesses_pla :
    stepAccesses (startOf .sparse { r0 with s := 0xFF#8, a := 0x11#8 } [0x68#8] [(0x0100, 0x00#8)]) =
      [.read 0x0200#16, .read 0x0100#16] := by decide

/-- 95_test_vectors.md B2.16, the column of memory transactions. -/
theorem test_accesses_sta_abs :
    stepAccesses (startOf .sparse { r0 with pc := 0xFFFE#16, a := 0x42#8 } [0x8D#8, 0x00#8, 0x03#8] []) =
      [.read 0xFFFE#16, .read 0xFFFF#16, .read 0x0000#16, .write 0x0300#16 0x42#8] := by decide

/-- 95_test_vectors.md B8.9, the column of memory transactions with the faulting read. -/
theorem test_accesses_operand_undefined :
    stepAccesses (startOf .sparse r0 [0xAD#8] []) =
      [.read 0x0200#16, .read 0x0201#16] := by decide


/-! ## Witnesses: for every statement with hypotheses, states that meet them -/

/-- `LDA #$80` with its operand at 0x0000: the instruction wraps round the top of memory. -/
def sLda : State := startOf .sparse { r0 with pc := 0xFFFF#16 } [0xA9#8, 0x80#8] []

/-- `PHA` from `sp = 0x00`. -/
def sPha : State := startOf .sparse { r0 with s := 0x00#8 } [0x48#8] []

/-- `LDA $1234` of an undefined cell. -/
def sUndefined : State := startOf .sparse r0 [0xAD#8, 0x34#8, 0x12#8] []

/-- The illegal byte `0x02` at 0xFFFF. -/
def sIllegal : State := startOf .sparse { r0 with pc := 0xFFFF#16 } [0x02#8] []

/-- A pull with `sp = 0xFF`: the cell 0x0100 is read. -/
def sPull : State := startOf .sparse { r0 with s := 0xFF#8 } [0x68#8] [(0x0100, 0x80#8)]

/-- Data at the last cell of the zero page and at the last cell of memory. -/
def sData : State := startOf .sparse r0 [] [(0x00FF, 0x80#8), (0xFFFF, 0x00#8)]

/-- Nothing is defined, and `pc` is the last address. -/
def sEmpty : State := startOf .sparse { r0 with pc := 0xFFFF#16, s := 0xFF#8 } [] []

theorem sLda_completes : ∃ t, step sLda = .next t := next_of_after (by decide)

theorem sPha_completes : ∃ t, step sPha = .next t := next_of_after (by decide)

theorem sUndefined_faults : step sUndefined = .fault (.unmappedAddress 0x1234#16) := fault_of_faultOf (by decide)

theorem sIllegal_faults : step sIllegal = .fault (.illegalOpcode 0x02#8 0xFFFF#16) := fault_of_faultOf (by decide)

theorem illegal_byte (i : Instr) : i.opcode ≠ 0x02#8 := by cases i <;> simp [Instr.opcode]

theorem witness_EncodeInvertsDecode :
    decode [0xA9#8, 0x80#8, 0xEA#8] = .instr (.ldaImm 0x80#8) [0xEA#8] := by decide

theorem witness_DecodeRejectsIllegalAndTruncatedByName :
    (decode [0x02#8, 0x00#8] = .rejected (.illegalOpcode 0x02#8) ∧ ∀ i : Instr, i.opcode ≠ 0x02#8) ∧
    decode [0xAD#8, 0x00#8] = .rejected (.missingOperand 0xAD#8) ∧ decode [] = .rejected .noBytes :=
  ⟨⟨by decide, illegal_byte⟩, by decide, by decide⟩

theorem witness_StepRunsTheDecodedInstruction :
    decode [0xA9#8, 0x80#8] = .instr (.ldaImm 0x80#8) [] ∧ sLda.mem.holds sLda.pc [0xA9#8, 0x80#8] = true := by decide

theorem witness_IllegalOpcodeFaultsWithItsByteAndAddress :
    sIllegal.mem.read sIllegal.pc = some 0x02#8 ∧ (∀ i : Instr, i.opcode ≠ 0x02#8) ∧
    step sIllegal = .fault (.illegalOpcode 0x02#8 0xFFFF#16) := ⟨by decide, illegal_byte, sIllegal_faults⟩

theorem witness_StepFaultsAtTheFirstUndefinedRead :
    step sUndefined = .fault (.unmappedAddress 0x1234#16) ∧
    stepAccesses sUndefined = [.read 0x0200#16, .read 0x0201#16, .read 0x0202#16] ++ [.read 0x1234#16] ∧
    ∃ t, step sLda = .next t := ⟨sUndefined_faults, by decide, sLda_completes⟩

theorem witness_StepWritesAreThoseOfItsTransactions :
    (∃ t, step sPha = .next t) ∧ stepAccesses sPha = [.read 0x0200#16] ++ .write 0x0100#16 0x00#8 :: [] :=
  ⟨sPha_completes, by decide⟩

theorem witness_DenseBackingNeverRaisesUnmapped :
    (startOf .dense r0 [0xAD#8, 0x34#8, 0x12#8] []).mem.backing = .dense ∧
    ∃ t, step (startOf .dense r0 [0xAD#8, 0x34#8, 0x12#8] []) = .next t := ⟨by decide, next_of_after (by decide)⟩

theorem witness_FetchReadsAtPcAndAdvancesByOne :
    sLda.mem.read sLda.pc = some 0xA9#8 ∧ sEmpty.mem.read sEmpty.pc = none := by decide

theorem witness_StackAddressStaysInThePage :
    sPha.sp = 0x00#8 ∧ sPull.sp = 0xFF#8 ∧ (0x00#8).toNat = (sPull.sp.toNat + 1) % 256 ∧
    sPull.mem.read (stackAddr 0x00#8) = some 0x80#8 := by decide

theorem witness_LaunchSetsTheWholeState :
    (∀ c ∈ [((65535, 1#8) : Host.Cell), (65535, 2#8)], c.1 < 65536) ∧
    (∃ c ∈ [((65536, 1#8) : Host.Cell)], 65536 ≤ c.1) := by decide

theorem witness_StepKeepsMemoryCanonical : sPha.inv = true ∧ ∃ t, step sPha = .next t := ⟨by decide, sPha_completes⟩

theorem witness_StepNeverUndefinesACell : sPha.mem.read sPha.pc ≠ none ∧ ∃ t, step sPha = .next t :=
  ⟨by decide, sPha_completes⟩

theorem witness_BreakAndIgnoredNeverChange : ∃ t, Sys2Proof.core.run 1 sLda = .next t := by
  obtain ⟨t, h⟩ := sLda_completes
  exact ⟨t, (core_run_succ_of_next 0 h).trans (core_run_zero t)⟩

theorem witness_FlagsKeepUnlessNamed :
    (∃ t, exec .plp sPull = .next t) ∧ Flag.break_ ∉ flagsWritten .plp ∧
    (∃ t, exec .clc sPull = .next t) ∧ Flag.zero ∉ flagsWritten .clc := ⟨⟨_, rfl⟩, by decide, ⟨_, rfl⟩, by decide⟩

theorem witness_RegistersKeepUnlessNamed :
    (∃ t, exec .pla sPull = .next t) ∧ Reg.x ∉ regsWritten .pla ∧
    (∃ t, exec .txs sPull = .next t) ∧ Reg.x ∉ regsWritten .txs := ⟨⟨_, rfl⟩, by decide, ⟨_, rfl⟩, by decide⟩

theorem witness_MemoryChangesOnlyWhereStored :
    (∃ t, exec .pha sPha = .next t) ∧ storeOf .pha sPha = some (0x0100#16, 0x00#8) ∧
    (∃ t, exec (.decZp 0xFF#8) sData = .next t) ∧ storeOf (.decZp 0xFF#8) sData = some (0x00FF#16, 0x7F#8) ∧
    (∃ t, exec .nop sData = .next t) ∧ storeOf .nop sData = none :=
  ⟨⟨_, rfl⟩, by decide, ⟨_, rfl⟩, by decide, ⟨_, rfl⟩, by decide⟩

theorem witness_CompletedStepAdvancesPcByLength :
    (∃ t, step sLda = .next t) ∧ isJump (.ldaImm 0x80#8) = false ∧
    ∃ t, step (startOf .sparse r0 [0x4C#8, 0xFF#8, 0xFF#8] []) = .next t :=
  ⟨sLda_completes, by decide, next_of_after (by decide)⟩

theorem witness_CompletedStepChargesTheTableCost :
    sLda.mem.holds sLda.pc (encode (.ldaImm 0x80#8)) = true ∧ ∃ t, step sLda = .next t := ⟨by decide, sLda_completes⟩

theorem witness_NothingDependsOnClk :
    (∃ t, step sPha = .next t) ∧ step sUndefined = .fault (.unmappedAddress 0x1234#16) :=
  ⟨sPha_completes, sUndefined_faults⟩

theorem witness_FlagsSteerNothingButThePushOfP :
    (sPha.mem.read sPha.pc ≠ some 0x08#8 ∧ ∃ t, step sPha = .next t) ∧
    (sUndefined.mem.read sUndefined.pc ≠ some 0x08#8 ∧ step sUndefined = .fault (.unmappedAddress 0x1234#16)) :=
  ⟨⟨by decide, sPha_completes⟩, by decide, sUndefined_faults⟩

theorem witness_LoadsFromZeroPageReplaceTheRegister : sData.mem.read (0x00#8 ++ 0xFF#8) = some 0x80#8 := by decide

theorem witness_LoadsFromAbsoluteReplaceTheRegister : sData.mem.read 0xFFFF#16 = some 0x00#8 := by decide

theorem witness_AndMasksTheAccumulator :
    sData.mem.read (0x00#8 ++ 0xFF#8) = some 0x80#8 ∧ sData.mem.read 0xFFFF#16 = some 0x00#8 := by decide

theorem witness_DecDecrementsTheCell :
    sData.mem.read (zeroPageAddr 0xFF#8) = some 0x80#8 ∧ sData.mem.read 0xFFFF#16 = some 0x00#8 := by decide

theorem witness_MemoryOperandsFaultOnAnUndefinedCell :
    sEmpty.mem.read (0x00#8 ++ 0xFF#8) = none ∧ sEmpty.mem.read 0xFFFF#16 = none := by decide

theorem witness_PullsIncrementThenRead :
    (0x00#8).toNat = (sPull.sp.toNat + 1) % 256 ∧ sPull.mem.read (stackAddr 0x00#8) = some 0x80#8 ∧
    (0x00#8).toNat = (sEmpty.sp.toNat + 1) % 256 ∧ sEmpty.mem.read (stackAddr 0x00#8) = none := by decide

/-- The pointers 0x30FF (high byte at 0x3000) and 0x30FE (high byte at 0x30FF), and each fault clause. -/
theorem witness_IndirectJumpWrapsInsideThePage :
    let s := startOf .sparse r0 [] [(0x30FF, 0x80#8), (0x3000, 0x50#8), (0x30FE, 0x11#8), (0x40FF, 0x00#8)]
    (0x3000#16 = if 0x30FF#16 &&& 0x00FF#16 = 0x00FF#16 then 0x30FF#16 &&& 0xFF00#16 else 0x30FF#16 + 1#16) ∧
    s.mem.read 0x30FF#16 = some 0x80#8 ∧ s.mem.read 0x3000#16 = some 0x50#8 ∧
    (0x30FF#16 = if 0x30FE#16 &&& 0x00FF#16 = 0x00FF#16 then 0x30FE#16 &&& 0xFF00#16 else 0x30FE#16 + 1#16) ∧
    s.mem.read 0x30FE#16 = some 0x11#8 ∧ s.mem.read 0xFFFF#16 = none ∧
    s.mem.read 0x40FF#16 = some 0x00#8 ∧ s.mem.read 0x4000#16 = none := by decide

/-- What the three fetches of a Step would read. -/
def stream (s : State) : List (Option Byte) := [s.mem.read s.pc, s.mem.read (s.pc + 1#16), s.mem.read (s.pc + 2#16)]

/-- The bytes `code` from 0xFFFF on, and the cells `other`. -/
def atTop (code : List Byte) (other : List Host.Cell) : State :=
  startOf .sparse { r0 with pc := 0xFFFF#16, s := 0xFF#8 } code other

theorem witness_StepRulesOfTheOpcodesTheSourceGives :
    stream sEmpty = [none, none, none] ∧ stream (atTop [0xA9#8] []) = [some 0xA9#8, none, none] ∧
    stream (atTop [0xA9#8, 0x80#8] []) = [some 0xA9#8, some 0x80#8, none] ∧
    stream (atTop [0xC6#8, 0xFF#8] []) = [some 0xC6#8, some 0xFF#8, none] ∧
    (atTop [0xC6#8, 0xFF#8] []).mem.read 0x00FF#16 = none ∧
    (atTop [0xC6#8, 0xFF#8] [(0x00FF, 0x00#8)]).mem.read 0x00FF#16 = some 0x00#8 ∧
    stream (atTop [0x4C#8, 0x34#8] []) = [some 0x4C#8, some 0x34#8, none] ∧
    stream (atTop [0x4C#8, 0xFF#8, 0xFF#8] []) = [some 0x4C#8, some 0xFF#8, some 0xFF#8] := by decide

theorem witness_FlagInstructionStepRules :
    stream sEmpty = [none, none, none] ∧ stream (atTop [0x18#8] []) = [some 0x18#8, none, none] := by decide

theorem witness_LoadStepRules :
    stream sEmpty = [none, none, none] ∧ stream (atTop [0xA2#8] []) = [some 0xA2#8, none, none] ∧
    stream (atTop [0xA2#8, 0x80#8] []) = [some 0xA2#8, some 0x80#8, none] ∧
    stream (atTop [0xAD#8] []) = [some 0xAD#8, none, none] ∧
    stream (atTop [0xAD#8, 0xFF#8] []) = [some 0xAD#8, some 0xFF#8, none] ∧
    stream (atTop [0xAD#8, 0xFF#8, 0x00#8] []) = [some 0xAD#8, some 0xFF#8, some 0x00#8] ∧
    (atTop [0xAD#8, 0xFF#8, 0x00#8] []).mem.read 0x00FF#16 = none ∧
    (atTop [0xA5#8, 0xFF#8] [(0x00FF, 0x00#8)]).mem.read 0x00FF#16 = some 0x00#8 := by decide

theorem witness_StoreStepRules :
    stream sEmpty = [none, none, none] ∧ stream (atTop [0x85#8] []) = [some 0x85#8, none, none] ∧
    stream (atTop [0x85#8, 0xFF#8] []) = [some 0x85#8, some 0xFF#8, none] ∧
    stream (atTop [0x8C#8] []) = [some 0x8C#8, none, none] ∧
    stream (atTop [0x8C#8, 0xFF#8] []) = [some 0x8C#8, some 0xFF#8, none] ∧
    stream (atTop [0x8C#8, 0xFF#8, 0xFF#8] []) = [some 0x8C#8, some 0xFF#8, some 0xFF#8] := by decide

theorem witness_TransferStepRules :
    stream sEmpty = [none, none, none] ∧ stream (atTop [0x9A#8] []) = [some 0x9A#8, none, none] := by decide

theorem witness_IncDecStepRules :
    stream sEmpty = [none, none, none] ∧ stream (atTop [0xE8#8] []) = [some 0xE8#8, none, none] ∧
    stream (atTop [0xCE#8] []) = [some 0xCE#8, none, none] ∧
    stream (atTop [0xCE#8, 0xFF#8] []) = [some 0xCE#8, some 0xFF#8, none] ∧
    stream (atTop [0xCE#8, 0xFF#8, 0x7F#8] []) = [some 0xCE#8, some 0xFF#8, some 0x7F#8] ∧
    (atTop [0xCE#8, 0xFF#8, 0x7F#8] []).mem.read 0x7FFF#16 = none ∧
    (atTop [0xCE#8, 0xFF#8, 0xFF#8] []).mem.read 0xFFFF#16 = some 0xCE#8 := by decide

theorem witness_AndStepRules :
    stream sEmpty = [none, none, none] ∧ stream (atTop [0x29#8] []) = [some 0x29#8, none, none] ∧
    stream (atTop [0x29#8, 0x80#8] []) = [some 0x29#8, some 0x80#8, none] ∧
    stream (atTop [0x2D#8, 0xFF#8] []) = [some 0x2D#8, some 0xFF#8, none] ∧
    stream (atTop [0x2D#8, 0xFF#8, 0xFF#8] []) = [some 0x2D#8, some 0xFF#8, some 0xFF#8] ∧
    (atTop [0x2D#8, 0xFF#8, 0xFF#8] []).mem.read 0xFFFF#16 = some 0x2D#8 := by decide

theorem witness_StackStepRules :
    stream sEmpty = [none, none, none] ∧ stream (atTop [0x68#8] []) = [some 0x68#8, none, none] ∧
    (atTop [0x68#8] []).mem.read 0x0100#16 = none ∧
    (atTop [0x28#8] [(0x0100, 0xFF#8)]).mem.read 0x0100#16 = some 0xFF#8 := by decide

theorem witness_NopAndJumpStepRules :
    stream sEmpty = [none, none, none] ∧ stream (atTop [0xEA#8] []) = [some 0xEA#8, none, none] ∧
    stream (atTop [0x6C#8, 0xFF#8] []) = [some 0x6C#8, some 0xFF#8, none] ∧
    stream (atTop [0x6C#8, 0xFF#8, 0x30#8] []) = [some 0x6C#8, some 0xFF#8, some 0x30#8] ∧
    (atTop [0x6C#8, 0xFF#8, 0x30#8] []).mem.read 0x30FF#16 = none ∧
    (atTop [0x6C#8, 0xFF#8, 0x30#8] [(0x30FF, 0x80#8)]).mem.read 0x3000#16 = none ∧
    (atTop [0x6C#8, 0xFF#8, 0x30#8] [(0x30FF, 0x80#8), (0x3000, 0x50#8)]).mem.read 0x3000#16 = some 0x50#8 := by
  decide

/-- A run ends by its budget, by a fault, and at the stop address, each with a stop address given. -/
theorem witness_HostRunStopsAsItsPolicySays :
    (∃ t, runUntil (some 0x0001#16) 1 sLda = (.budgetSpent, t)) ∧
    (∃ t, runUntil (some 0x0001#16) 2 sIllegal = (.faulted (.illegalOpcode 0x02#8 0xFFFF#16), t)) ∧
    (∃ t, runUntil (some 0x0001#16) 2 sLda = (.reachedPc, t)) :=
  ⟨⟨_, Prod.ext (by decide) rfl⟩, ⟨_, Prod.ext (by decide) rfl⟩, ⟨_, Prod.ext (by decide) rfl⟩⟩

/-- The inner premises: a stop address given, a Step count below the budget, and the state it reaches. -/
theorem witness_HostRunStopsAsItsPolicySays_before_the_end :
    Sys2Proof.core.run 0 sLda = .next sLda ∧ (0 : Nat) < 1 ∧ some 0x0001#16 ≠ some sLda.pc :=
  ⟨core_run_zero sLda, by decide, by decide⟩

end Sys2Proof.Tests
end

/-! # Proofs of the family 10_state: the state's invariants, its frames and what a Step does not depend on -/

namespace Sys2Proof.Machine

/-! ## Reset -/

/-- Settles O16: a dense memory with no cell listed reads 0 by the definition of its backing. -/
theorem resetIsTheChosenLaunch : Obligations.ResetIsTheChosenLaunch :=
  ⟨rfl, rfl, rfl, rfl, rfl, rfl, rfl, rfl, rfl, fun _ => rfl⟩

/-- Settles O18: the empty cell list is in canonical form. -/
theorem resetMeetsTheInvariant : Obligations.ResetMeetsTheInvariant := rfl

/-! ## Flags: what each computation on `p` does to each named bit -/

/-- `nz` meets R26 bit by bit. -/
theorem nz_result (p v : Byte) : NzResult p v (nz p v) := by
  intro k hk
  by_cases hv : v = 0#8
  · subst hv
    interval_cases k <;> simp [nz]
  · interval_cases k <;> simp [nz, hv]

theorem Flag.bit_lt (f : Flag) : f.bit < 8 := by cases f <;> decide

theorem Flag.bit_ne {f g : Flag} (h : f ≠ g) : f.bit ≠ g.bit := by
  cases f <;> cases g <;> simp_all [Flag.bit]

/-- The mask of a flag has no other flag's bit. -/
theorem flagOf_mask_other {f g : Flag} (h : g ≠ f) : flagOf f.mask g = false := by
  have hne := Flag.bit_ne h
  simp only [flagOf, Flag.mask, BitVec.getLsbD_shiftLeft, BitVec.getLsbD_one]
  suffices g.bit < 8 → f.bit ≤ g.bit → ¬g.bit - f.bit = 0 by simpa
  omega

theorem flagOf_setFlag_other (p : Byte) {f g : Flag} (h : g ≠ f) : flagOf (setFlag p f) g = flagOf p g := by
  have hm := flagOf_mask_other h
  simp only [flagOf] at hm
  simp only [flagOf, setFlag, BitVec.getLsbD_or, hm, Bool.or_false]

theorem flagOf_clearFlag_other (p : Byte) {f g : Flag} (h : g ≠ f) : flagOf (clearFlag p f) g = flagOf p g := by
  have hm := flagOf_mask_other h
  simp only [flagOf] at hm
  simp only [flagOf, clearFlag, BitVec.getLsbD_and, BitVec.getLsbD_not, hm, g.bit_lt, decide_true, Bool.not_false,
    Bool.and_true]

theorem flagOf_nz_other (p v : Byte) {f : Flag} (h : f ∉ [Flag.zero, .negative]) :
    flagOf (nz p v) f = flagOf p f := by
  simp only [List.mem_cons, List.not_mem_nil, or_false, not_or] at h
  have hz : f.bit ≠ 1 := Flag.bit_ne h.1
  have hn : f.bit ≠ 7 := Flag.bit_ne h.2
  simpa only [flagOf, hz, hn, if_false] using nz_result p v f.bit f.bit_lt

theorem flagOf_mergePulled_other (p m : Byte) {f : Flag}
    (h : f ∉ [Flag.carry, .zero, .interruptDisable, .decimal, .overflow, .negative]) :
    flagOf (mergePulled p m) f = flagOf p f := by
  cases f <;> simp_all [flagOf, mergePulled, Flag.bit]

/-- Settles O15: bit by bit from `nz_result`; Zero and Negative exclude each other because bit 7 of 0 is 0. -/
theorem nzSetsZeroAndNegativeOnly : Obligations.NzSetsZeroAndNegativeOnly := by
  intro s p v
  refine ⟨nz_result p v, rfl, ?_, rfl⟩
  rintro ⟨hz, hn⟩
  rw [nz_result p v 1 (by decide)] at hz
  rw [nz_result p v 7 (by decide)] at hn
  obtain rfl : v = 0#8 := by simpa using hz
  simp at hn

/-! ## Memory: what the writes of a Step keep -/

/-- Replayed writes keep the canonical form. -/
theorem Memory.wf_replay {m : Memory} (accs : List Access) (h : m.wf = true) : (m.replay accs).wf = true := by
  induction accs generalizing m with
  | nil => exact h
  | cons acc rest ih =>
    cases acc with
    | read _ => exact ih h
    | write ea v => exact ih (Memory.wf_write ea v h)

@[simp] theorem Memory.replay_backing (m : Memory) (accs : List Access) : (m.replay accs).backing = m.backing := by
  induction accs generalizing m with
  | nil => rfl
  | cons acc rest ih =>
    cases acc with
    | read _ => exact ih m
    | write ea v => exact (ih _).trans (m.write_backing ea v)

theorem Memory.read_write_ne_none {m : Memory} {b : Addr} (ea : Addr) (v : Byte) (h : m.read b ≠ none) :
    (m.write ea v).read b ≠ none := by
  rw [Memory.read_write]
  split
  · exact Option.some_ne_none v
  · exact h

theorem Memory.read_replay_ne_none {m : Memory} {b : Addr} (accs : List Access) (h : m.read b ≠ none) :
    (m.replay accs).read b ≠ none := by
  induction accs generalizing m with
  | nil => exact h
  | cons acc rest ih =>
    cases acc with
    | read _ => exact ih h
    | write ea v => exact ih (Memory.read_write_ne_none ea v h)

/-- A completed Step changes memory by replayed writes alone. -/
theorem step_mem {s t : State} (h : step s = .next t) : ∃ accs, t.mem = s.mem.replay accs := by
  obtain ⟨i, -, he⟩ := step_eq_next.1 h
  have hm := exec_mem he
  exact ⟨_, hm⟩

/-- Settles O19: the Step's writes are replayed, and each write keeps the canonical form and the backing. -/
theorem stepKeepsMemoryCanonical : Obligations.StepKeepsMemoryCanonical := by
  intro s t hs h
  obtain ⟨accs, ht⟩ := step_mem h
  unfold State.inv at hs ⊢
  rw [ht]
  exact ⟨Memory.wf_replay accs hs, s.mem.replay_backing accs⟩

/-- Settles O20: a write defines its own cell and leaves the others. -/
theorem stepNeverUndefinesACell : Obligations.StepNeverUndefinesACell := by
  intro s t h ea hea
  obtain ⟨accs, ht⟩ := step_mem h
  rw [ht]
  exact Memory.read_replay_ne_none accs hea

/-! ## The frame of an instruction -/

/-- Between `s` and `t` no register changed but those of `regs`, no flag but those of `flags`, and, unless `jump`,
not `pc`. -/
structure Frame (regs : List Reg) (flags : List Flag) (jump : Bool) (s t : State) : Prop where
  reg : ∀ r, r ∉ regs → t.readReg r = s.readReg r
  flag : ∀ f, f ∉ flags → flagOf t.p f = flagOf s.p f
  pc : jump = false → t.pc = s.pc

theorem writeRegNz_frame {r : Reg} {v : Byte} {n : Nat} {s t : State} (h : writeRegNz r v n s = .next t) :
    Frame [r] [.zero, .negative] false s t := by
  obtain rfl := writeRegNz_eq_next.1 h
  refine ⟨fun q hq => ?_, fun f hf => ?_, fun _ => s.writeReg_pc r v⟩
  · have hne : q ≠ r := by simpa using hq
    exact (s.readReg_writeReg r q v).trans (if_neg hne)
  · exact (flagOf_nz_other _ v hf).trans (by rw [s.writeReg_p])

/-- Loads and AND from a cell. -/
theorem withRead_writeRegNz_frame {r : Reg} {ea : Addr} {g : Byte → Byte} {n : Nat} {s t : State}
    (h : withRead s ea (fun v => writeRegNz r (g v) n s) = .next t) : Frame [r] [.zero, .negative] false s t := by
  obtain ⟨_, -, hw⟩ := withRead_eq_next.1 h
  exact writeRegNz_frame hw

theorem complete_frame {n : Nat} {s t : State} (h : complete n s = .next t) : Frame [] [] false s t := by
  obtain rfl := complete_eq_next.1 h
  exact ⟨fun r _ => by cases r <;> rfl, fun _ _ => rfl, fun _ => rfl⟩

theorem storeFrom_frame {r : Reg} {ea : Addr} {n : Nat} {s t : State} (h : storeFrom r ea n s = .next t) :
    Frame [] [] false s t := by
  obtain rfl := storeFrom_eq_next.1 h
  exact ⟨fun q _ => by cases q <;> rfl, fun _ _ => rfl, fun _ => rfl⟩

theorem decrementCell_frame {ea : Addr} {n : Nat} {s t : State} (h : decrementCell ea n s = .next t) :
    Frame [] [.zero, .negative] false s t := by
  obtain ⟨v, -, rfl⟩ := decrementCell_eq_next.1 h
  exact ⟨fun q _ => by cases q <;> rfl, fun _ hf => flagOf_nz_other _ _ hf, fun _ => rfl⟩

theorem push_frame {v : Byte} {n : Nat} {s t : State} (h : push v n s = .next t) : Frame [.sp] [] false s t := by
  obtain rfl := push_eq_next.1 h
  exact ⟨fun q hq => by cases q <;> simp_all, fun _ _ => rfl, fun _ => rfl⟩

theorem flagSet_frame {f : Flag} {n : Nat} {s t : State} (h : flagSet f n s = .next t) :
    Frame [] [f] false s t := by
  obtain rfl := flagSet_eq_next.1 h
  exact ⟨fun q _ => by cases q <;> rfl, fun g hg => flagOf_setFlag_other s.p (by simpa using hg), fun _ => rfl⟩

theorem flagClear_frame {f : Flag} {n : Nat} {s t : State} (h : flagClear f n s = .next t) :
    Frame [] [f] false s t := by
  obtain rfl := flagClear_eq_next.1 h
  exact ⟨fun q _ => by cases q <;> rfl, fun g hg => flagOf_clearFlag_other s.p (by simpa using hg), fun _ => rfl⟩

theorem execTxs_frame {s t : State} (h : execTxs s = .next t) : Frame [.sp] [] false s t := by
  obtain rfl := complete_eq_next.1 h
  exact ⟨fun q hq => by cases q <;> simp_all, fun _ _ => rfl, fun _ => rfl⟩

theorem execPla_frame {s t : State} (h : execPla s = .next t) : Frame [.a, .sp] [.zero, .negative] false s t := by
  obtain ⟨v, -, hw⟩ := pull_eq_next.1 h
  have hf := writeRegNz_frame hw
  exact ⟨fun q hq => by cases q <;> simp_all [hf.reg], hf.flag, hf.pc⟩

theorem execPlp_frame {s t : State} (h : execPlp s = .next t) :
    Frame [.sp] [.carry, .zero, .interruptDisable, .decimal, .overflow, .negative] false s t := by
  obtain ⟨m, -, hc⟩ := pull_eq_next.1 h
  obtain rfl := complete_eq_next.1 hc
  exact ⟨fun q hq => by cases q <;> simp_all, fun _ hf => flagOf_mergePulled_other s.p m hf, fun _ => rfl⟩

theorem complete_setPc_frame {n : Nat} {w : Addr} {s t : State} (h : complete n (s.setPc w) = .next t) :
    Frame [] [] true s t := by
  obtain rfl := complete_eq_next.1 h
  exact ⟨fun q _ => by cases q <;> rfl, fun _ _ => rfl, fun hj => nomatch hj⟩

theorem execJmpInd_frame {ptr : Addr} {s t : State} (h : execJmpInd ptr s = .next t) : Frame [] [] true s t := by
  obtain ⟨_, -, h⟩ := withRead_eq_next.1 h
  obtain ⟨_, -, h⟩ := withRead_eq_next.1 h
  exact complete_setPc_frame h

/-- An instruction that completes keeps all that the tables of R21, R24, R25 and R188 do not name for it. -/
theorem exec_frame {i : Instr} {s t : State} (h : exec i s = .next t) :
    Frame (regsWritten i) (flagsWritten i) (isJump i) s t := by
  cases i with
  | clc | cli | clv | cld => exact flagClear_frame h
  | sec | sei | sed => exact flagSet_frame h
  | ldaImm | ldxImm | ldyImm | andImm | tax | txa | tay | tya | tsx | inx | iny | dex | dey =>
    exact writeRegNz_frame h
  | ldaZp | ldaAbs | ldxZp | ldxAbs | ldyZp | ldyAbs | andZp | andAbs => exact withRead_writeRegNz_frame h
  | staZp | staAbs | stxZp | stxAbs | styZp | styAbs => exact storeFrom_frame h
  | txs => exact execTxs_frame h
  | decZp | decAbs => exact decrementCell_frame h
  | pha | php => exact push_frame h
  | pla => exact execPla_frame h
  | plp => exact execPlp_frame h
  | nop => exact complete_frame h
  | jmpAbs => exact complete_setPc_frame h
  | jmpInd => exact execJmpInd_frame h

/-- Settles O22: the flag part of the frame. -/
theorem flagsKeepUnlessNamed : Obligations.FlagsKeepUnlessNamed := fun _ _ _ h => (exec_frame h).flag

/-- Settles O23: the register part of the frame. -/
theorem registersKeepUnlessNamed : Obligations.RegistersKeepUnlessNamed := fun _ _ _ h => (exec_frame h).reg

/-- Settles O25: the effect starts with `pc` past the instruction's bytes, and the frame keeps it there. -/
theorem completedStepAdvancesPcByLength : Obligations.CompletedStepAdvancesPcByLength := by
  intro s t h
  obtain ⟨i, hi, he⟩ := step_eq_next.1 h
  refine ⟨i, hi, he, fun hj => ?_⟩
  rw [(exec_frame he).pc hj]
  simp

/-! ## Break and Ignored along a run -/

theorem break_not_mem_flagsWritten (i : Instr) : Flag.break_ ∉ flagsWritten i := by cases i <;> simp [flagsWritten]

theorem ignored_not_mem_flagsWritten (i : Instr) : Flag.ignored ∉ flagsWritten i := by cases i <;> simp [flagsWritten]

/-- Bits 4 and 5 of `p` are the same in both states. -/
def SameBreakIgnored (s t : State) : Prop := t.p.getLsbD 4 = s.p.getLsbD 4 ∧ t.p.getLsbD 5 = s.p.getLsbD 5

theorem SameBreakIgnored.trans {s t u : State} (h : SameBreakIgnored s t) (h' : SameBreakIgnored t u) :
    SameBreakIgnored s u := ⟨h'.1.trans h.1, h'.2.trans h.2⟩

theorem step_keeps_break_ignored {s t : State} (h : step s = .next t) : SameBreakIgnored s t := by
  obtain ⟨i, -, he⟩ := step_eq_next.1 h
  have hf := (exec_frame he).flag
  exact ⟨hf .break_ (break_not_mem_flagsWritten i), hf .ignored (ignored_not_mem_flagsWritten i)⟩

theorem step_ne_refused (s : State) (r : Refusal) : step s ≠ .refused r := by
  intro h
  rcases step_cases s with ⟨i, -, hs⟩ | ⟨f, -, hs⟩
  · exact exec_ne_refused i _ r (hs ▸ h)
  · rw [hs] at h
    cases h

/-- What every Step keeps holds of the state a run reaches. -/
theorem core_run_keeps {I : State → Prop} (hstep : ∀ s t, I s → step s = .next t → I t) {n : Nat} {s t : State}
    (hs : I s) (h : Sys2Proof.core.run n s = .next t) : I t := by
  induction n generalizing s with
  | zero =>
    obtain rfl : s = t := Host.Outcome.next.inj h
    exact hs
  | succ n ih =>
    cases hst : step s with
    | next u => exact ih (hstep s u hs hst) (core_run_succ_of_next n hst ▸ h)
    | fault f =>
      rw [core_run_succ_of_fault n hst] at h
      cases h
    | refused r => exact absurd hst (step_ne_refused s r)

/-- Settles O21: no instruction names either bit among the flags it writes, so every Step keeps both. -/
theorem breakAndIgnoredNeverChange : Obligations.BreakAndIgnoredNeverChange := by
  constructor
  · intro n s t h
    exact core_run_keeps (I := SameBreakIgnored s) (fun u w hu hw => hu.trans (step_keeps_break_ignored hw))
      ⟨rfl, rfl⟩ h
  · intro s
    refine ⟨_, or10 s.p, push_eq_next.2 rfl, s.mem.read_write_same _ _, ?_, rfl⟩
    simp [or10]

/-! ## Two runs alike but for `p` and `clk` -/

/-- `s` with another status byte and another cycle count. -/
def State.withPClk (s : State) (q : Byte) (c : Nat) : State := { s with p := q, clk := c }

/-! A fetch carries the status byte and the cycle count along, and reads neither. -/

theorem fetchByte_withPClk (s : State) (q : Byte) (c : Nat) :
    fetchByte (s.withPClk q c) = (fetchByte s).map (Prod.map id (·.withPClk q c)) := by
  cases h : s.mem.read s.pc <;> simp [fetchByte, State.withPClk, h, Except.map, State.setPc]

theorem fetchWord_withPClk (s : State) (q : Byte) (c : Nat) :
    fetchWord (s.withPClk q c) = (fetchWord s).map (Prod.map id (·.withPClk q c)) := by
  simp only [fetchWord, fetchByte_withPClk]
  cases fetchByte s with
  | error f => rfl
  | ok r =>
    simp only [Except.map, Prod.map, fetchByte_withPClk]
    cases fetchByte r.2 <;> rfl

theorem resolve_withPClk (f : Form) (s : State) (q : Byte) (c : Nat) :
    resolve f (s.withPClk q c) = (resolve f s).map (Prod.map id (·.withPClk q c)) := by
  cases f with
  | implied => rfl
  | immediate | zeroPage =>
    simp only [resolve, fetchByte_withPClk]
    cases fetchByte s <;> rfl
  | absolute | indirect =>
    simp only [resolve, fetchWord_withPClk]
    cases fetchWord s <;> rfl

theorem fetchInstr_withPClk (s : State) (q : Byte) (c : Nat) :
    fetchInstr (s.withPClk q c) = (fetchInstr s).map (Prod.map id (·.withPClk q c)) := by
  simp only [fetchInstr, fetchByte_withPClk]
  cases fetchByte s with
  | error f => rfl
  | ok r =>
    simp only [Except.map, Prod.map, id]
    cases lookupOpcode r.1 with
    | none => rfl
    | some row => exact resolve_withPClk row.form r.2 q c

/-- `s'` is `s` with `clk` higher by `d` and some status byte, which is that of `s` if `sameP`. -/
def Alike (sameP : Prop) (d : Nat) (s s' : State) : Prop :=
  ∃ q, (sameP → q = s.p) ∧ s' = s.withPClk q (s.clk + d)

/-- Two answers are the same fault, or next states alike. -/
inductive AnswersAlike (sameP : Prop) (d : Nat) : Result → Result → Prop
  | next {t t' : State} (h : Alike sameP d t t') : AnswersAlike sameP d (.next t) (.next t')
  | fault (f : Fault) : AnswersAlike sameP d (.fault f) (.fault f)

section
variable {sameP : Prop} {d : Nat} {s s' : State}

theorem Alike.mem_eq (h : Alike sameP d s s') : s'.mem = s.mem := by
  obtain ⟨q, -, rfl⟩ := h
  rfl

theorem Alike.readReg_eq (h : Alike sameP d s s') (r : Reg) : s'.readReg r = s.readReg r := by
  obtain ⟨q, -, rfl⟩ := h
  cases r <;> rfl

theorem Alike.setPc (h : Alike sameP d s s') (w : Addr) : Alike sameP d (s.setPc w) (s'.setPc w) := by
  obtain ⟨q, hq, rfl⟩ := h
  exact ⟨q, hq, rfl⟩

theorem Alike.writeReg (h : Alike sameP d s s') (r : Reg) (v : Byte) :
    Alike sameP d (s.writeReg r v) (s'.writeReg r v) := by
  obtain ⟨q, hq, rfl⟩ := h
  exact ⟨q, by rwa [s.writeReg_p], by cases r <;> rfl⟩

theorem Alike.store (h : Alike sameP d s s') (ea : Addr) (v : Byte) :
    Alike sameP d (s.store ea v) (s'.store ea v) := by
  obtain ⟨q, hq, rfl⟩ := h
  exact ⟨q, hq, rfl⟩

/-- The status byte of each may be changed by one function. -/
theorem Alike.mapP (h : Alike sameP d s s') (g : Byte → Byte) :
    Alike sameP d (s.setP (g s.p)) (s'.setP (g s'.p)) := by
  obtain ⟨q, hq, rfl⟩ := h
  exact ⟨g q, fun hs => congrArg g (hq hs), rfl⟩

theorem complete_alike (n : Nat) (h : Alike sameP d s s') :
    AnswersAlike sameP d (complete n s) (complete n s') := by
  obtain ⟨q, hq, rfl⟩ := h
  exact .next ⟨q, hq, by simp [State.withPClk, Nat.add_right_comm]⟩

theorem withRead_alike (h : Alike sameP d s s') (ea : Addr) {k k' : Byte → Result}
    (hk : ∀ v, AnswersAlike sameP d (k v) (k' v)) :
    AnswersAlike sameP d (withRead s ea k) (withRead s' ea k') := by
  cases hr : s.mem.read ea with
  | none =>
    rw [withRead_none k hr, withRead_none k' (h.mem_eq ▸ hr)]
    exact .fault _
  | some v =>
    rw [withRead_some k hr, withRead_some k' (h.mem_eq ▸ hr)]
    exact hk v

theorem writeRegNz_alike (h : Alike sameP d s s') (r : Reg) (v : Byte) (n : Nat) :
    AnswersAlike sameP d (writeRegNz r v n s) (writeRegNz r v n s') :=
  complete_alike n ((h.writeReg r v).mapP (nz · v))

theorem copyNz_alike (h : Alike sameP d s s') (r src : Reg) (g : Byte → Byte) (n : Nat) :
    AnswersAlike sameP d (writeRegNz r (g (s.readReg src)) n s) (writeRegNz r (g (s'.readReg src)) n s') := by
  rw [h.readReg_eq]
  exact writeRegNz_alike h r _ n

theorem storeFrom_alike (h : Alike sameP d s s') (r : Reg) (ea : Addr) (n : Nat) :
    AnswersAlike sameP d (storeFrom r ea n s) (storeFrom r ea n s') := by
  unfold storeFrom
  rw [h.readReg_eq]
  exact complete_alike n (h.store ea _)

theorem decrementCell_alike (h : Alike sameP d s s') (ea : Addr) (n : Nat) :
    AnswersAlike sameP d (decrementCell ea n s) (decrementCell ea n s') :=
  withRead_alike h ea fun v => complete_alike n ((h.store ea (dec8 v)).mapP (nz · (dec8 v)))

theorem push_alike (h : Alike sameP d s s') (v : Byte) (n : Nat) :
    AnswersAlike sameP d (push v n s) (push v n s') := by
  have hsp : s'.sp = s.sp := h.readReg_eq .sp
  unfold push
  rw [hsp]
  exact complete_alike n ((h.store _ v).writeReg .sp _)

theorem pull_alike (h : Alike sameP d s s') {k : Byte → State → Result}
    (hk : ∀ v {u u' : State}, Alike sameP d u u' → AnswersAlike sameP d (k v u) (k v u')) :
    AnswersAlike sameP d (pull s k) (pull s' k) := by
  have hsp : s'.sp = s.sp := h.readReg_eq .sp
  have h1 : Alike sameP d (s.setSp (inc8 s.sp)) (s'.setSp (inc8 s.sp)) := h.writeReg .sp _
  unfold pull
  rw [hsp]
  exact withRead_alike h1 _ fun v => hk v h1

theorem execJmpInd_alike (h : Alike sameP d s s') (ptr : Addr) :
    AnswersAlike sameP d (execJmpInd ptr s) (execJmpInd ptr s') :=
  withRead_alike h ptr fun _ => withRead_alike h _ fun _ => complete_alike 5 (h.setPc _)

/-- From states alike every instruction answers alike, `PHP` only where the status bytes agree. -/
theorem exec_alike {i : Instr} (h : Alike sameP d s s') (hphp : i = .php → sameP) :
    AnswersAlike sameP d (exec i s) (exec i s') := by
  have ha : s'.a = s.a := h.readReg_eq .a
  cases i with
  | clc => exact complete_alike 2 (h.mapP (clearFlag · .carry))
  | sec => exact complete_alike 2 (h.mapP (setFlag · .carry))
  | cli => exact complete_alike 2 (h.mapP (clearFlag · .interruptDisable))
  | sei => exact complete_alike 2 (h.mapP (setFlag · .interruptDisable))
  | clv => exact complete_alike 2 (h.mapP (clearFlag · .overflow))
  | cld => exact complete_alike 2 (h.mapP (clearFlag · .decimal))
  | sed => exact complete_alike 2 (h.mapP (setFlag · .decimal))
  | ldaImm | ldxImm | ldyImm => exact writeRegNz_alike h _ _ 2
  | ldaZp | ldxZp | ldyZp | ldaAbs | ldxAbs | ldyAbs =>
    exact withRead_alike h _ fun v => writeRegNz_alike h _ v _
  | staZp | staAbs => exact storeFrom_alike h .a _ _
  | stxZp | stxAbs => exact storeFrom_alike h .x _ _
  | styZp | styAbs => exact storeFrom_alike h .y _ _
  | tax => exact copyNz_alike h .x .a id 2
  | txa => exact copyNz_alike h .a .x id 2
  | tay => exact copyNz_alike h .y .a id 2
  | tya => exact copyNz_alike h .a .y id 2
  | tsx => exact copyNz_alike h .x .sp id 2
  | txs =>
    unfold exec execTxs
    rw [h.readReg_eq]
    exact complete_alike 2 (h.writeReg .sp _)
  | inx => exact copyNz_alike h .x .x inc8 2
  | iny => exact copyNz_alike h .y .y inc8 2
  | dex => exact copyNz_alike h .x .x dec8 2
  | dey => exact copyNz_alike h .y .y dec8 2
  | decZp | decAbs => exact decrementCell_alike h _ _
  | andImm v => exact copyNz_alike h .a .a (and8 · v) 2
  | andZp | andAbs => exact withRead_alike h _ fun v => copyNz_alike h .a .a (and8 · v) _
  | pha =>
    unfold exec execPha
    rw [ha]
    exact push_alike h s.a 3
  | php =>
    have hp : s'.p = s.p := by
      obtain ⟨q, hq, rfl⟩ := h
      exact hq (hphp rfl)
    unfold exec execPhp
    rw [hp]
    exact push_alike h (or10 s.p) 3
  | pla => exact pull_alike h fun v _ _ hu => writeRegNz_alike hu .a v 4
  | plp => exact pull_alike h fun m _ _ hu => complete_alike 4 (hu.mapP (mergePulled · m))
  | nop => exact complete_alike 2 h
  | jmpAbs ea => exact complete_alike 3 (h.setPc ea)
  | jmpInd ptr => exact execJmpInd_alike h ptr

/-- From states alike a Step answers alike, that of `PHP` only where the status bytes agree. -/
theorem step_alike (h : Alike sameP d s s') (hphp : s.mem.read s.pc = some 0x08#8 → sameP) :
    AnswersAlike sameP d (step s) (step s') := by
  obtain ⟨q, hq, rfl⟩ := h
  unfold step
  rw [fetchInstr_withPClk]
  cases hf : fetchInstr s with
  | error f => exact .fault f
  | ok r =>
    obtain ⟨i, s1⟩ := r
    obtain ⟨hi, rfl⟩ := fetchInstr_ok hf
    obtain ⟨hop, -⟩ := (Memory.holds_cons _ _ _ _).1 hi
    refine exec_alike ⟨q, hq, rfl⟩ ?_
    rintro rfl
    exact hphp hop

theorem AnswersAlike.of_next {t : State} {r : Result} (h : AnswersAlike sameP d (.next t) r) :
    ∃ t', r = .next t' ∧ Alike sameP d t t' := by
  cases h with
  | next ht => exact ⟨_, rfl, ht⟩

theorem AnswersAlike.of_fault {f : Fault} {r : Result} (h : AnswersAlike sameP d (.fault f) r) : r = .fault f := by
  cases h with
  | fault _ => rfl

end

/-- Settles O27: the two runs are alike with equal status bytes. -/
theorem nothingDependsOnClk : Obligations.NothingDependsOnClk := by
  intro s d
  have h : AnswersAlike True d (step s) (step { s with clk := s.clk + d }) :=
    step_alike ⟨s.p, fun _ => rfl, rfl⟩ fun _ => trivial
  constructor
  · intro t ht
    rw [ht] at h
    obtain ⟨t', he, q, hq, rfl⟩ := h.of_next
    obtain rfl := hq trivial
    exact he
  · intro f hf
    rw [hf] at h
    exact h.of_fault

/-- Settles O28: the two runs are alike with `clk` equal, whatever the status bytes. -/
theorem flagsSteerNothingButThePushOfP : Obligations.FlagsSteerNothingButThePushOfP := by
  intro s q hphp
  have h : AnswersAlike False 0 (step s) (step { s with p := q }) :=
    step_alike ⟨q, False.elim, rfl⟩ hphp
  constructor
  · intro t ht
    rw [ht] at h
    obtain ⟨t', he, q', -, rfl⟩ := h.of_next
    exact ⟨q', he⟩
  · intro f hf
    rw [hf] at h
    exact h.of_fault

end Sys2Proof.Machine

/-! # Proofs of the family 20_memory: the transactions of a Step, where it writes, and the address arithmetic -/

namespace Sys2Proof.Machine

/-! ## An answer and the transactions that lead to it -/

/-- The transactions `accs` over the memory `m` lead to the answer `r`: every read but the last is of a defined cell,
an undefined read is the last transaction and `r` its fault, and a write is the last transaction and `r` completes with
that write made (R66, R201, R205). -/
inductive BusTrace (m : Memory) : List Access → Result → Prop
  | done {t : State} (ht : t.mem = m) : BusTrace m [] (.next t)
  | write {t : State} {ea : Addr} {v : Byte} (ht : t.mem = m.write ea v) : BusTrace m [.write ea v] (.next t)
  | illegal (b : Byte) (pc0 : Addr) : BusTrace m [] (.fault (.illegalOpcode b pc0))
  | undefined {ea : Addr} (h : m.read ea = none) : BusTrace m [.read ea] (.fault (.unmappedAddress ea))
  | read {ea : Addr} {accs : List Access} {r : Result} (h : m.read ea ≠ none) (tail : BusTrace m accs r) :
      BusTrace m (.read ea :: accs) r

/-- Every read of the list is of a cell that `m` defines. -/
def ReadsDefined (m : Memory) (accs : List Access) : Prop := ∀ ea, Access.read ea ∈ accs → m.read ea ≠ none

theorem readsDefined_nil (m : Memory) : ReadsDefined m [] := by simp [ReadsDefined]

theorem readsDefined_write (m : Memory) (ea : Addr) (v : Byte) : ReadsDefined m [.write ea v] := by
  simp [ReadsDefined]

theorem ReadsDefined.cons_read {m : Memory} {ea : Addr} {accs : List Access} (h : m.read ea ≠ none)
    (hr : ReadsDefined m accs) : ReadsDefined m (.read ea :: accs) := by
  intro b hb
  rcases List.mem_cons.1 hb with he | hb
  · obtain rfl := Access.read.inj he
    exact h
  · exact hr b hb

section
variable {m : Memory} {accs : List Access} {r : Result}

/-- Either the answer is the fault of the last transaction, the first undefined read, or it is no such fault and every
read was defined. -/
theorem BusTrace.reads (h : BusTrace m accs r) :
    (∃ before a, r = .fault (.unmappedAddress a) ∧ accs = before ++ [.read a] ∧ m.read a = none ∧
      ReadsDefined m before) ∨
    ((∀ a, r ≠ .fault (.unmappedAddress a)) ∧ ReadsDefined m accs) := by
  induction h with
  | done _ => exact .inr ⟨by simp, readsDefined_nil m⟩
  | write _ => exact .inr ⟨by simp, readsDefined_write m _ _⟩
  | illegal b pc0 => exact .inr ⟨by simp, readsDefined_nil m⟩
  | undefined h => exact .inl ⟨[], _, rfl, rfl, h, readsDefined_nil m⟩
  | read h _ ih =>
    rcases ih with ⟨before, a, hr, rfl, ha, hb⟩ | ⟨hr, hd⟩
    · exact .inl ⟨_ :: before, a, hr, rfl, ha, hb.cons_read h⟩
    · exact .inr ⟨hr, hd.cons_read h⟩

/-- A completing answer has the listed writes made, and no others. -/
theorem BusTrace.mem_of_next {t : State} (h : BusTrace m accs (.next t)) : t.mem = m.replay accs := by
  generalize hr : (.next t : Result) = r at h
  induction h with
  | done ht | write ht =>
    obtain rfl := Host.Outcome.next.inj hr
    exact ht
  | illegal | undefined => cases hr
  | read _ _ ih => exact ih hr

theorem BusTrace.write_is_last (h : BusTrace m accs r) {before after : List Access} {ea : Addr} {v : Byte}
    (he : accs = before ++ .write ea v :: after) : after = [] := by
  induction h generalizing before with
  | done | illegal => simp at he
  | write | undefined => cases before <;> simp_all
  | read _ _ ih =>
    cases before with
    | nil => cases he
    | cons _ before => exact ih (List.cons.inj he).2

end

/-! ## Building the trace along the reads -/

/-- A list that begins with a read leads to `r` if `r` is the fault of that read, or the rest leads to `r`. -/
theorem readThen_trace {m : Memory} {ea : Addr} {accs : Byte → List Access} {r : Result}
    (hnone : m.read ea = none → r = .fault (.unmappedAddress ea))
    (hsome : ∀ v, m.read ea = some v → BusTrace m (accs v) r) : BusTrace m (readThen m ea accs) r := by
  unfold readThen
  cases h : m.read ea with
  | none =>
    obtain rfl := hnone h
    exact .undefined h
  | some v => exact .read (by simp [h]) (hsome v h)

theorem withRead_trace {s : State} {ea : Addr} {accs : Byte → List Access} {k : Byte → Result}
    (h : ∀ v, BusTrace s.mem (accs v) (k v)) : BusTrace s.mem (readThen s.mem ea accs) (withRead s ea k) := by
  refine readThen_trace (withRead_none k) fun v hv => ?_
  rw [withRead_some k hv]
  exact h v

theorem readThen_nil (m : Memory) (ea : Addr) : (readThen m ea fun _ => []) = [.read ea] := by
  unfold readThen
  split <;> rfl

/-- The read that ends an effect. -/
theorem withRead_last_trace {s : State} {ea : Addr} {k : Byte → Result} (h : ∀ v, BusTrace s.mem [] (k v)) :
    BusTrace s.mem [.read ea] (withRead s ea k) := by
  rw [← readThen_nil s.mem ea]
  exact withRead_trace h

theorem writeRegNz_trace (s : State) (r : Reg) (v : Byte) (n : Nat) : BusTrace s.mem [] (writeRegNz r v n s) :=
  .done (s.writeReg_mem r v)

theorem decrementCell_trace (s : State) (ea : Addr) (n : Nat) :
    BusTrace s.mem (readThen s.mem ea fun v => [.write ea (dec8 v)]) (decrementCell ea n s) :=
  withRead_trace fun _ => .write rfl

theorem pull_trace {s : State} {k : Byte → State → Result}
    (h : ∀ v, BusTrace s.mem [] (k v (s.setSp (inc8 s.sp)))) :
    BusTrace s.mem [.read (stackAddr (inc8 s.sp))] (pull s k) :=
  withRead_last_trace (s := s.setSp (inc8 s.sp)) h

theorem execPla_trace (s : State) : BusTrace s.mem [.read (stackAddr (inc8 s.sp))] (execPla s) :=
  pull_trace fun v => writeRegNz_trace (s.setSp (inc8 s.sp)) .a v 4

theorem execPlp_trace (s : State) : BusTrace s.mem [.read (stackAddr (inc8 s.sp))] (execPlp s) :=
  pull_trace fun _ => .done rfl

theorem execJmpInd_trace (s : State) (ptr : Addr) :
    BusTrace s.mem (readThen s.mem ptr fun _ => [.read (pointerHighAddr ptr)]) (execJmpInd ptr s) :=
  withRead_trace fun _ => withRead_last_trace fun _ => .done rfl

/-- The transactions R66 lists for an instruction's effect lead to what the effect answers. -/
theorem exec_trace (i : Instr) (s : State) : BusTrace s.mem (effectAccesses i s) (exec i s) := by
  cases i with
  | clc | sec | cli | sei | clv | cld | sed | txs | nop | jmpAbs => exact .done rfl
  | ldaImm | ldxImm | ldyImm | andImm | tax | txa | tay | tya | tsx | inx | iny | dex | dey =>
    exact writeRegNz_trace s _ _ 2
  | ldaZp | ldaAbs | ldxZp | ldxAbs | ldyZp | ldyAbs | andZp | andAbs =>
    exact withRead_last_trace fun _ => writeRegNz_trace s _ _ _
  | staZp | staAbs | stxZp | stxAbs | styZp | styAbs | pha | php => exact .write rfl
  | decZp | decAbs => exact decrementCell_trace s _ _
  | pla => exact execPla_trace s
  | plp => exact execPlp_trace s
  | jmpInd ptr => exact execJmpInd_trace s ptr

/-! ## The Step along its fetches -/

/-- The rest of a Step, after the fetch answered. -/
def runFetched (fetched : Except Fault (Instr × State)) : Result :=
  match fetched with
  | .ok (i, s1) => exec i s1
  | .error f => takeFault f

theorem step_eq_runFetched (s : State) : step s = runFetched (fetchInstr s) := rfl

@[simp] theorem State.setPc_setPc (s : State) (v w : Addr) : (s.setPc v).setPc w = s.setPc w := rfl

/-- What an instruction transacts does not depend on `pc`. -/
theorem effectAccesses_setPc (i : Instr) (s : State) (w : Addr) :
    effectAccesses i (s.setPc w) = effectAccesses i s := by
  cases i <;> rfl

theorem exec_setPc_trace (i : Instr) (s : State) (w : Addr) :
    BusTrace s.mem (effectAccesses i s) (exec i (s.setPc w)) := by
  rw [← effectAccesses_setPc i s w]
  exact exec_trace i (s.setPc w)

/-- The operand fetches of a format and the effect, from the state whose `pc` stands past the opcode byte. -/
theorem resolve_trace (f : Form) (s : State) :
    BusTrace s.mem (formAccesses f s) (runFetched (resolve f (s.setPc (nextPc s.pc)))) := by
  cases f with
  | implied i => exact exec_setPc_trace i s _
  | immediate k | zeroPage k =>
    refine readThen_trace (fun h => ?_) fun b h => ?_
    · simp [resolve, fetchByte, h, runFetched]
    · simpa [resolve, fetchByte, h, runFetched] using exec_setPc_trace (k b) s _
  | absolute k | indirect k =>
    refine readThen_trace (fun h => ?_) fun lo hlo => readThen_trace (fun h => ?_) fun hi h => ?_
    · simp [resolve, fetchWord, fetchByte, h, runFetched]
    · simp [resolve, fetchWord, fetchByte, hlo, h, runFetched]
    · simpa [resolve, fetchWord, fetchByte, hlo, h, runFetched] using exec_setPc_trace (k (joinBytes hi lo)) s _

/-- The transaction list of R66 leads to the answer of the Step. -/
theorem step_trace (s : State) : BusTrace s.mem (stepAccesses s) (step s) := by
  rw [step_eq_runFetched]
  refine readThen_trace (fun h => ?_) fun op h => ?_
  · simp [fetchInstr, fetchByte_none h, runFetched]
  · cases hr : lookupOpcode op with
    | none => simpa [fetchInstr, fetchByte_some h, hr, runFetched] using .illegal op s.pc
    | some row =>
      rw [fetchInstr_of_row h hr]
      exact resolve_trace row.form s

/-- Settles O7: both directions are read off the trace of the Step, whose list ends at its first undefined read. -/
theorem stepFaultsAtTheFirstUndefinedRead : Obligations.StepFaultsAtTheFirstUndefinedRead := by
  constructor
  · intro s a
    rcases (step_trace s).reads with ⟨before, b, hs, hl, hb, hd⟩ | ⟨hs, hd⟩
    · constructor
      · intro h
        obtain rfl : b = a := by simpa [hs] using h
        exact ⟨before, hl, hb, hd⟩
      · rintro ⟨before', hl', -, -⟩
        obtain rfl : b = a := by simpa using (List.append_inj_right' (hl.symm.trans hl') rfl)
        exact hs
    · constructor
      · intro h
        exact absurd h (hs a)
      · rintro ⟨before, hl, ha, -⟩
        exact absurd ha (hd a (by simp [hl]))
  · intro s t ht
    rcases (step_trace s).reads with ⟨_, _, hs, -⟩ | ⟨-, hd⟩
    · cases hs.symm.trans ht
    · exact hd

/-! ## How many transactions -/

theorem readThen_length_le {m : Memory} {ea : Addr} {accs : Byte → List Access} {n : Nat}
    (h : ∀ v, (accs v).length ≤ n) : (readThen m ea accs).length ≤ n + 1 := by
  unfold readThen
  split
  · simpa using h _
  · simp

theorem effectAccesses_length_le (i : Instr) (s : State) : (effectAccesses i s).length ≤ 2 := by
  cases i with
  | decZp | decAbs | jmpInd => exact readThen_length_le fun _ => Nat.le_refl 1
  | _ => simp [effectAccesses]

theorem formAccesses_length_le (f : Form) (s : State) : (formAccesses f s).length ≤ 4 := by
  have he := fun i => effectAccesses_length_le i s
  cases f with
  | implied i => exact (he i).trans (by decide)
  | immediate k | zeroPage k => exact (readThen_length_le fun b => he (k b)).trans (by decide)
  | absolute k | indirect k => exact readThen_length_le fun _ => readThen_length_le fun _ => he _

theorem stepAccesses_length_le (s : State) : (stepAccesses s).length ≤ 5 := by
  refine readThen_length_le fun op => ?_
  cases lookupOpcode op with
  | none => exact Nat.zero_le 4
  | some row => exact formAccesses_length_le row.form s

/-- Settles O8: the trace ends at its write; three fetches and two transactions of the effect are the most. -/
theorem stepWritesAreThoseOfItsTransactions : Obligations.StepWritesAreThoseOfItsTransactions := by
  constructor
  · intro s t ht
    have h := step_trace s
    rw [ht] at h
    exact h.mem_of_next
  · exact fun s => ⟨stepAccesses_length_le s, fun _ _ _ _ he => (step_trace s).write_is_last he⟩

/-- Settles O10: an unmapped fault names an undefined cell, and a dense memory has none. -/
theorem denseBackingNeverRaisesUnmapped : Obligations.DenseBackingNeverRaisesUnmapped := by
  intro s hs
  constructor
  · intro a ha
    obtain ⟨_, -, hn, -⟩ := (stepFaultsAtTheFirstUndefinedRead.1 s a).1 ha
    obtain ⟨v, hv⟩ := Memory.read_dense hs a
    cases hn.symm.trans hv
  · intro t ht
    obtain ⟨accs, hm⟩ := step_mem ht
    rw [hm, Memory.replay_backing]
    exact hs

/-! ## Where an instruction stores -/

/-- The memory with the store of `storeOf` made, if there is one. -/
def Memory.withStore (m : Memory) (st : Option (Addr × Byte)) : Memory :=
  match st with
  | some (ea, v) => m.write ea v
  | none => m

theorem replay_readThen_write (m : Memory) (ea : Addr) (g : Byte → Byte) :
    m.replay (readThen m ea fun v => [.write ea (g v)]) = m.withStore ((m.read ea).map fun v => (ea, g v)) := by
  unfold readThen
  cases m.read ea <;> rfl

theorem replay_readThen_read (m : Memory) (ea ea' : Addr) : m.replay (readThen m ea fun _ => [.read ea']) = m := by
  unfold readThen
  cases m.read ea <;> rfl

/-- The one write among the transactions of an effect is the instruction's store. -/
theorem replay_effectAccesses (i : Instr) (s : State) :
    s.mem.replay (effectAccesses i s) = s.mem.withStore (storeOf i s) := by
  cases i with
  | decZp | decAbs => exact replay_readThen_write s.mem _ dec8
  | jmpInd ptr => exact replay_readThen_read s.mem ptr _
  | _ => rfl

theorem exec_mem_withStore {i : Instr} {s t : State} (h : exec i s = .next t) :
    t.mem = s.mem.withStore (storeOf i s) :=
  (exec_mem h).trans (replay_effectAccesses i s)

/-- Settles O24: the memory after the effect is the one before with the instruction's store made. -/
theorem memoryChangesOnlyWhereStored : Obligations.MemoryChangesOnlyWhereStored := by
  intro i s t h
  rw [exec_mem_withStore h]
  constructor
  · intro ea v hst
    rw [hst]
    exact s.mem.read_write_same ea v
  · intro b hb
    cases hst : storeOf i s with
    | none => rfl
    | some st => exact s.mem.read_write_other st.2 (hb st.1 st.2 hst)

/-! ## Address arithmetic as numbers -/

@[simp] theorem nextPc_toNat (pc : Addr) : (nextPc pc).toNat = (pc.toNat + 1) % 65536 := by simp [nextPc]

@[simp] theorem inc8_toNat (b : Byte) : (inc8 b).toNat = (b.toNat + 1) % 256 := by simp [inc8]

@[simp] theorem dec8_toNat (b : Byte) : (dec8 b).toNat = (b.toNat + 255) % 256 := by
  simp [dec8, BitVec.toNat_sub, Nat.add_comm]

@[simp] theorem zeroPageAddr_toNat (b : Byte) : (zeroPageAddr b).toNat = b.toNat := by
  simp [zeroPageAddr, Config.zeroPage]

@[simp] theorem stackAddr_toNat (sp : Byte) : (stackAddr sp).toNat = 0x0100 + sp.toNat := by
  simp [stackAddr, Config.stackPage]

@[simp] theorem pointerHighAddr_toNat (ptr : Addr) :
    (pointerHighAddr ptr).toNat = 256 * (ptr.toNat / 256) + (ptr.toNat % 256 + 1) % 256 := by
  simp [pointerHighAddr]

/-- Settles O13: one fact per operation. -/
theorem addressArithmeticWraps : Obligations.AddressArithmeticWraps := fun pc ptr b h =>
  ⟨nextPc_toNat pc, inc8_toNat b, dec8_toNat b, zeroPageAddr_toNat b, joinBytes_toNat h b, pointerHighAddr_toNat ptr⟩

/-! ## The stack -/

theorem stackAddr_eq_or (sp : Byte) : stackAddr sp = 0x0100#16 ||| sp.setWidth 16 :=
  BitVec.append_def 0x01#8 sp

theorem stackAddr_in_page (sp : Byte) : 0x0100#16 ≤ stackAddr sp ∧ stackAddr sp ≤ 0x01FF#16 := by
  have hsp : sp.toNat < 256 := sp.isLt
  simp only [BitVec.le_def, stackAddr_toNat, BitVec.toNat_ofNat]
  omega

/-- The state a push completes in. -/
def State.pushed (s : State) (v : Byte) (n : Nat) : State :=
  { s with mem := s.mem.write (stackAddr s.sp) v, sp := dec8 s.sp, clk := s.clk + n }

theorem push_eq_pushed (s : State) (v : Byte) (n : Nat) : push v n s = .next (s.pushed v n) := push_eq_next.2 rfl

theorem pushed_read (s : State) (v : Byte) (n : Nat) : (s.pushed v n).mem.read (stackAddr s.sp) = some v :=
  s.mem.read_write_same _ v

/-- At the bottom of the page a push stores at 0x0100 and `sp` wraps to 0xFF. -/
theorem pushed_at_zero {s : State} (h : s.sp = 0x00#8) (v : Byte) (n : Nat) :
    (s.pushed v n).sp = 0xFF#8 ∧ (s.pushed v n).mem.read 0x0100#16 = some v := by
  have hr := pushed_read s v n
  rw [h] at hr
  exact ⟨congrArg dec8 h, hr⟩

theorem execPla_of_read {s : State} {v : Byte} (h : s.mem.read (stackAddr (inc8 s.sp)) = some v) :
    execPla s = writeRegNz .a v 4 (s.setSp (inc8 s.sp)) :=
  withRead_some (s := s.setSp (inc8 s.sp)) _ h

theorem execPlp_of_read {s : State} {v : Byte} (h : s.mem.read (stackAddr (inc8 s.sp)) = some v) :
    execPlp s = complete 4 ((s.setSp (inc8 s.sp)).setP (mergePulled s.p v)) :=
  withRead_some (s := s.setSp (inc8 s.sp)) _ h

/-- Settles O14: pushes by the state they leave, pulls by the byte at the incremented `sp`. -/
theorem stackAddressStaysInThePage : Obligations.StackAddressStaysInThePage := by
  refine ⟨fun sp => ⟨stackAddr_toNat sp, stackAddr_eq_or sp, rfl, stackAddr_in_page sp⟩, fun s => ?_, ?_⟩
  · refine ⟨_, _, push_eq_pushed s s.a 3, push_eq_pushed s (or10 s.p) 3, dec8_toNat s.sp, dec8_toNat s.sp,
      pushed_read s _ 3, pushed_read s _ 3, fun h => ?_⟩
    obtain ⟨hsp, hpha⟩ := pushed_at_zero h s.a 3
    obtain ⟨-, hphp⟩ := pushed_at_zero h (or10 s.p) 3
    exact ⟨hsp, hsp, hpha, hphp⟩
  · intro s sp1 v hsp hv
    obtain rfl : sp1 = inc8 s.sp := BitVec.eq_of_toNat_eq (by rw [hsp, inc8_toNat])
    refine ⟨_, _, execPla_of_read hv, execPlp_of_read hv, rfl, rfl, rfl, rfl, fun h => ?_⟩
    have hwrap : inc8 s.sp = 0x00#8 := congrArg inc8 h
    rw [hwrap] at hv
    exact ⟨hwrap, hwrap, hv⟩

end Sys2Proof.Machine

/-! # Proofs of the family 30_encoding: the decoder and the encoder invert each other, and the decoder's rejections -/

namespace Sys2Proof

/-! ## Decode, by what the lookup of the first byte answers -/

theorem decode_of_row {b : Byte} {r : Row} (h : lookupOpcode b = some r) (rest : List Byte) :
    decode (b :: rest) = decodeOperand b r.form rest := by
  simp only [decode, h]

theorem decode_of_no_row {b : Byte} (h : lookupOpcode b = none) (rest : List Byte) :
    decode (b :: rest) = .rejected (.illegalOpcode b) := by
  simp only [decode, h]

/-! ## What the operand decoder answers -/

theorem decodeOperand_of_builds {f : Form} {i : Instr} (h : f.Builds i) (op : Byte) (rest : List Byte) :
    decodeOperand op f (i.operandBytes ++ rest) = .instr i rest := by
  cases f with
  | implied j =>
    obtain ⟨rfl, ho⟩ := h
    simp [ho, decodeOperand]
  | immediate k | zeroPage k =>
    obtain ⟨b, rfl, ho⟩ := h
    simp [ho, decodeOperand]
  | absolute k | indirect k =>
    obtain ⟨w, rfl, ho⟩ := h
    simp [ho, decodeOperand]

/-- The bytes a row's operand is read from are those its instruction is encoded with. -/
theorem encode_of_decodeOperand {r : Row} (he : r.EncodesItsOpcode) {op : Byte} {bytes rest : List Byte} {i : Instr}
    (h : decodeOperand op r.form bytes = .instr i rest) : r.opcode :: bytes = encode i ++ rest := by
  unfold Row.EncodesItsOpcode at he
  unfold decodeOperand at h
  split at h
  case h_1 hf | h_2 hf | h_3 hf | h_4 hf | h_5 hf =>
    obtain ⟨rfl, rfl⟩ := Decoded.instr.inj h
    rw [hf] at he
    simp [he]
  case h_6 => cases h

/-- The operand decoder rejects exactly a string shorter than the operand of its format. -/
theorem decodeOperand_eq_rejected {op : Byte} {f : Form} {bytes : List Byte} {why : DecodeError} :
    decodeOperand op f bytes = .rejected why ↔ why = .missingOperand op ∧ bytes.length + 1 < f.mode.length := by
  cases f with
  | implied i => simp [decodeOperand, Form.mode, Mode.length]
  | immediate k | zeroPage k =>
    cases bytes <;> simp [decodeOperand, Form.mode, Mode.length, eq_comm]
  | absolute k | indirect k =>
    match bytes with
    | [] | [_] | _ :: _ :: _ => simp [decodeOperand, Form.mode, Mode.length, eq_comm]

/-! ## The two round trips -/

/-- Settles O2: the row of the opcode byte builds the instruction from its operand bytes. -/
theorem decodeInvertsEncode : Obligations.DecodeInvertsEncode := by
  intro i rest
  obtain ⟨r, hr, -, hb⟩ := lookupOpcode_opcode i
  exact (decode_of_row hr _).trans (decodeOperand_of_builds hb i.opcode rest)

/-- Settles O3: the row found has the first byte as its opcode, and what it builds is encoded with the bytes read. -/
theorem encodeInvertsDecode : Obligations.EncodeInvertsDecode := by
  intro bytes rest i h
  cases bytes with
  | nil => cases h
  | cons b bs =>
    cases hr : lookupOpcode b with
    | none =>
      rw [decode_of_no_row hr] at h
      cases h
    | some r =>
      rw [decode_of_row hr] at h
      obtain ⟨rfl, he⟩ := lookupOpcode_some hr
      exact encode_of_decodeOperand he h

/-- Settles O1: each of the nine strings is the encoding of its instruction. -/
theorem specEncodingsDecodeToTheirInstruction : Obligations.SpecEncodingsDecodeToTheirInstruction :=
  ⟨decodeInvertsEncode .clc [], decodeInvertsEncode (.ldaImm 0x80#8) [], decodeInvertsEncode (.ldxZp 0xFF#8) [],
    decodeInvertsEncode (.styAbs 0x01FD#16) [], decodeInvertsEncode .tsx [], decodeInvertsEncode (.decAbs 0x0300#16) [],
    decodeInvertsEncode (.andImm 0x3C#8) [], decodeInvertsEncode .plp [], decodeInvertsEncode (.jmpInd 0x30FF#16) []⟩

/-! ## The rejections -/

/-- Every row is of some instruction's opcode byte. -/
theorem exists_opcode_of_row {b : Byte} {r : Row} (h : lookupOpcode b = some r) : ∃ i : Instr, i.opcode = b := by
  obtain ⟨rfl, he⟩ := lookupOpcode_some h
  unfold Row.EncodesItsOpcode at he
  split at he
  case h_1 i _ => exact ⟨i, (List.cons.inj he).1⟩
  case h_2 k _ | h_3 k _ | h_4 k _ | h_5 k _ => exact ⟨k 0, (List.cons.inj (he 0)).1⟩

/-- The 212 bytes with no row (R85) are those that are the opcode of no instruction. -/
theorem lookupOpcode_eq_none {b : Byte} : lookupOpcode b = none ↔ ∀ i : Instr, i.opcode ≠ b := by
  constructor
  · rintro h i rfl
    obtain ⟨r, hr, -⟩ := lookupOpcode_opcode i
    cases h.symm.trans hr
  · intro h
    cases hr : lookupOpcode b with
    | none => rfl
    | some r =>
      obtain ⟨i, hi⟩ := exists_opcode_of_row hr
      exact absurd hi (h i)

theorem Form.Builds.operandBytes_length {f : Form} {i : Instr} (h : f.Builds i) :
    i.operandBytes.length + 1 = f.mode.length := by
  cases f with
  | implied j => simp [h.2, Form.mode, Mode.length]
  | immediate k | zeroPage k | absolute k | indirect k =>
    obtain ⟨_, -, ho⟩ := h
    simp [ho, Form.mode, Mode.length]

/-- After an instruction's opcode byte the one rejection is that of a truncated operand. -/
theorem decode_opcode_eq_rejected (i : Instr) {rest : List Byte} {why : DecodeError} :
    decode (i.opcode :: rest) = .rejected why ↔
      why = .missingOperand i.opcode ∧ rest.length < i.operandBytes.length := by
  obtain ⟨r, hr, -, hb⟩ := lookupOpcode_opcode i
  rw [decode_of_row hr, decodeOperand_eq_rejected, ← hb.operandBytes_length, Nat.add_lt_add_iff_right]

/-- What a rejection says of the byte string (R82, R85, R102). -/
def DecodeError.Describes (why : DecodeError) (bytes : List Byte) : Prop :=
  match why with
  | .noBytes => bytes = []
  | .illegalOpcode b => ∃ rest, bytes = b :: rest ∧ ∀ i : Instr, i.opcode ≠ b
  | .missingOperand b =>
    ∃ (rest : List Byte) (i : Instr), bytes = b :: rest ∧ i.opcode = b ∧ rest.length < i.operandBytes.length

/-- A rejection is given exactly where what it says holds. -/
theorem decode_eq_rejected {bytes : List Byte} {why : DecodeError} :
    decode bytes = .rejected why ↔ why.Describes bytes := by
  constructor
  · intro h
    cases bytes with
    | nil =>
      obtain rfl := Decoded.rejected.inj h
      rfl
    | cons b rest =>
      cases hr : lookupOpcode b with
      | none =>
        rw [decode_of_no_row hr] at h
        obtain rfl := Decoded.rejected.inj h
        exact ⟨rest, rfl, lookupOpcode_eq_none.1 hr⟩
      | some r =>
        obtain ⟨i, rfl⟩ := exists_opcode_of_row hr
        obtain ⟨rfl, hl⟩ := (decode_opcode_eq_rejected i).1 h
        exact ⟨rest, i, rfl, rfl, hl⟩
  · intro h
    cases why with
    | noBytes =>
      obtain rfl := h
      rfl
    | illegalOpcode b =>
      obtain ⟨rest, rfl, hb⟩ := h
      exact decode_of_no_row (lookupOpcode_eq_none.2 hb) rest
    | missingOperand b =>
      obtain ⟨rest, i, rfl, rfl, hl⟩ := h
      exact (decode_opcode_eq_rejected i).2 ⟨rfl, hl⟩

/-- Settles O4: each clause is `decode_eq_rejected` at one rejection. -/
theorem decodeRejectsIllegalAndTruncatedByName : Obligations.DecodeRejectsIllegalAndTruncatedByName :=
  fun _ _ => ⟨decode_eq_rejected, decode_eq_rejected, decode_eq_rejected⟩

end Sys2Proof

/-! # Proofs of the family 40_step_and_addressing: the fetch, the Step of decoded bytes, and the Step transaction -/

namespace Sys2Proof.Machine

/-! ## The fetch of one byte -/

/-- Settles O12: `nextPc` is the increment modulo 65536. -/
theorem fetchReadsAtPcAndAdvancesByOne : Obligations.FetchReadsAtPcAndAdvancesByOne :=
  fun s => ⟨fun _ hb => ⟨nextPc s.pc, fetchByte_some hb, nextPc_toNat s.pc⟩, fetchByte_none⟩

/-! ## The Step of the bytes at `pc` -/

/-- The number of bytes of an encoding is the length its mode has in R81. -/
@[simp] theorem encode_length (i : Instr) : (encode i).length = i.length := by
  obtain ⟨r, -, hm, hb⟩ := lookupOpcode_opcode i
  calc (encode i).length
    _ = i.operandBytes.length + 1 := List.length_cons
    _ = r.form.mode.length := hb.operandBytes_length
    _ = i.length := congrArg Mode.length hm

/-- Settles O5: bytes that decode with nothing left over are the encoding, whose Step is known. -/
theorem stepRunsTheDecodedInstruction : Obligations.StepRunsTheDecodedInstruction := by
  intro s bytes i hd hs
  obtain rfl : bytes = encode i := by simpa using encodeInvertsDecode bytes [] i hd
  rw [encode_length]
  exact step_of_holds hs

/-! ## The Step transaction, by the answer of the Step -/

theorem stepTransaction_of_next {s t : State} (h : step s = .next t) : stepTransaction s = (.done, t) := by
  simp only [stepTransaction, h]

/-- The rollback of R108: the host still holds the state before the Step. -/
theorem stepTransaction_of_fault {s : State} {f : Fault} (h : step s = .fault f) :
    stepTransaction s = (.fault f, s) := by
  simp only [stepTransaction, h]

/-- Settles O11: a Step completes or faults, since it never refuses. -/
theorem faultingStepLeavesTheStateAsItWas : Obligations.FaultingStepLeavesTheStateAsItWas := by
  intro s
  cases h : step s with
  | next t => exact .inl ⟨t, rfl, stepTransaction_of_next h⟩
  | fault f => exact .inr ⟨f, rfl, stepTransaction_of_fault h⟩
  | refused r => exact absurd h (step_ne_refused s r)

end Sys2Proof.Machine

/-! # Proofs of the family 41_flag_set_clear: the seven instructions that write one bit of `p` -/

namespace Sys2Proof.Machine

/-! ## The bits of a flag write -/

theorem Flag.getLsbD_mask (f : Flag) (j : Nat) : f.mask.getLsbD j = decide (j = f.bit) := by
  have h : f.mask = BitVec.twoPow 8 f.bit := rfl
  simp [h, BitVec.getLsbD_twoPow, f.bit_lt, eq_comm]

theorem getLsbD_setFlag (p : Byte) (f : Flag) (j : Nat) :
    (setFlag p f).getLsbD j = if j = f.bit then true else p.getLsbD j := by
  by_cases h : j = f.bit <;> simp [setFlag, f.getLsbD_mask, h]

theorem getLsbD_clearFlag (p : Byte) (f : Flag) (j : Nat) :
    (clearFlag p f).getLsbD j = if j = f.bit then false else p.getLsbD j := by
  by_cases h : j = f.bit
  · simp [clearFlag, f.getLsbD_mask, h]
  · have hp : p.getLsbD j = true → j < 8 := BitVec.lt_of_getLsbD
    simpa [clearFlag, f.getLsbD_mask, h] using hp

theorem writesOneFlag_of_flagSet {i : Instr} {f : Flag} (he : exec i = flagSet f 2) : WritesOneFlag i f.bit true := by
  intro s
  rw [he]
  exact ⟨setFlag s.p f, flagSet_eq_next.2 rfl, fun j _ => getLsbD_setFlag s.p f j⟩

theorem writesOneFlag_of_flagClear {i : Instr} {f : Flag} (he : exec i = flagClear f 2) :
    WritesOneFlag i f.bit false := by
  intro s
  rw [he]
  exact ⟨clearFlag s.p f, flagClear_eq_next.2 rfl, fun j _ => getLsbD_clearFlag s.p f j⟩

/-- Settles O29: each of the seven is `flagSet` or `flagClear` of its flag. -/
theorem flagInstructionsWriteOneBit : Obligations.FlagInstructionsWriteOneBit :=
  ⟨writesOneFlag_of_flagClear (f := .carry) rfl, writesOneFlag_of_flagSet (f := .carry) rfl,
    writesOneFlag_of_flagClear (f := .interruptDisable) rfl, writesOneFlag_of_flagSet (f := .interruptDisable) rfl,
    writesOneFlag_of_flagClear (f := .overflow) rfl, writesOneFlag_of_flagClear (f := .decimal) rfl,
    writesOneFlag_of_flagSet (f := .decimal) rfl⟩

/-! ## The Step of an instruction that is its opcode byte alone -/

/-- The opcode fetch comes first, so its fault is that of the Step. -/
theorem step_of_opcode_undefined {s : State} (h : s.mem.read s.pc = none) :
    step s = .fault (.unmappedAddress s.pc) := by
  simp [step, fetchInstr, fetchByte_none h]

theorem step_of_opcode_alone {i : Instr} (hi : encode i = [i.opcode]) {s : State}
    (h : s.mem.read s.pc = some i.opcode) : step s = exec i { s with pc := s.pc + 1#16 } := by
  have hs : s.mem.holds s.pc (encode i) = true := by simp [hi, h]
  have hl : i.length = 1 := by rw [← encode_length, hi, List.length_singleton]
  rw [step_of_holds hs, hl]

theorem impliedRule_of_exec {i : Instr} {effect : State → Result} (hi : encode i = [i.opcode])
    (he : ∀ s, exec i s = effect s) : ImpliedRule i.opcode effect :=
  fun _ => ⟨step_of_opcode_undefined, fun h => (step_of_opcode_alone hi h).trans (he _)⟩

theorem impliedRule_of_flagSet {i : Instr} {f : Flag} (hi : encode i = [i.opcode]) (he : exec i = flagSet f 2) :
    ImpliedRule i.opcode fun s => .next { s with p := s.p ||| f.mask, clk := s.clk + 2 } :=
  impliedRule_of_exec hi fun s => (congrFun he s).trans (flagSet_eq_next.2 rfl)

theorem impliedRule_of_flagClear {i : Instr} {f : Flag} (hi : encode i = [i.opcode]) (he : exec i = flagClear f 2) :
    ImpliedRule i.opcode fun s => .next { s with p := s.p &&& ~~~f.mask, clk := s.clk + 2 } :=
  impliedRule_of_exec hi fun s => (congrFun he s).trans (flagClear_eq_next.2 rfl)

/-- Settles O45: the masks of the rules are those of the flags, or their complements. -/
theorem flagInstructionStepRules : Obligations.FlagInstructionStepRules :=
  ⟨impliedRule_of_flagClear (i := .clc) (f := .carry) rfl rfl,
    impliedRule_of_flagSet (i := .sec) (f := .carry) rfl rfl,
    impliedRule_of_flagClear (i := .cli) (f := .interruptDisable) rfl rfl,
    impliedRule_of_flagSet (i := .sei) (f := .interruptDisable) rfl rfl,
    impliedRule_of_flagClear (i := .clv) (f := .overflow) rfl rfl,
    impliedRule_of_flagClear (i := .cld) (f := .decimal) rfl rfl,
    impliedRule_of_flagSet (i := .sed) (f := .decimal) rfl rfl⟩

end Sys2Proof.Machine

/-! # Proofs of the family 42_load_store: the nine loads and six stores, and the Steps with an operand in the stream -/

namespace Sys2Proof.Machine

/-! ## What a load and a store answer -/

/-- A load with a defined operand, its status byte by the bits of R26. -/
theorem loadInto_replaces {r : Reg} {o : Operand} {n : Nat} {s : State} {v : Byte} (h : o.valueIn s.mem = some v) :
    ∃ p', NzResult s.p v p' ∧ loadInto r o n s = .next { s.writeReg r v with p := p', clk := s.clk + n } := by
  refine ⟨nz s.p v, nz_result s.p v, loadInto_eq_next.2 ⟨v, h, ?_⟩⟩
  rw [← s.writeReg_p r v]
  rfl

/-- Settles O30: the three are `loadInto` with the operand itself. -/
theorem loadsImmediateReplaceTheRegister : Obligations.LoadsImmediateReplaceTheRegister := fun v _ =>
  ⟨loadInto_replaces (r := .a) (o := .imm v) rfl, loadInto_replaces (r := .x) (o := .imm v) rfl,
    loadInto_replaces (r := .y) (o := .imm v) rfl⟩

/-- Settles O31: the three are `loadInto` with the cell in page zero. -/
theorem loadsFromZeroPageReplaceTheRegister : Obligations.LoadsFromZeroPageReplaceTheRegister := fun z v s h =>
  have h : (Operand.cell (zeroPageAddr z)).valueIn s.mem = some v := h
  ⟨loadInto_replaces (r := .a) h, loadInto_replaces (r := .x) h, loadInto_replaces (r := .y) h⟩

/-- Settles O32: the three are `loadInto` with the cell at the operand. -/
theorem loadsFromAbsoluteReplaceTheRegister : Obligations.LoadsFromAbsoluteReplaceTheRegister := fun ea v s h =>
  have h : (Operand.cell ea).valueIn s.mem = some v := h
  ⟨loadInto_replaces (r := .a) h, loadInto_replaces (r := .x) h, loadInto_replaces (r := .y) h⟩

theorem Memory.cellWritten_write (m : Memory) (ea : Addr) (v : Byte) : CellWritten m (m.write ea v) ea v :=
  ⟨m.read_write_same ea v, fun _ hb => m.read_write_other v hb⟩

/-- A store completes from every state: `MemWrite` never fails (R52). -/
theorem storeFrom_completes (r : Reg) (ea : Addr) (n : Nat) (s : State) :
    storeFrom r ea n s = .next { s with mem := s.mem.write ea (s.readReg r), clk := s.clk + n } :=
  storeFrom_eq_next.2 rfl

theorem storeFrom_writes_cell (r : Reg) (ea : Addr) (n : Nat) (s : State) :
    ∃ m', CellWritten s.mem m' ea (s.readReg r) ∧ storeFrom r ea n s = .next { s with mem := m', clk := s.clk + n } :=
  ⟨_, s.mem.cellWritten_write ea _, storeFrom_completes r ea n s⟩

/-- Settles O34: the six are `storeFrom` of a register to an effective address. -/
theorem storesWriteOneCell : Obligations.StoresWriteOneCell := fun z ea s =>
  ⟨storeFrom_writes_cell .a (zeroPageAddr z) 3 s, storeFrom_writes_cell .a ea 4 s,
    storeFrom_writes_cell .x (zeroPageAddr z) 3 s, storeFrom_writes_cell .x ea 4 s,
    storeFrom_writes_cell .y (zeroPageAddr z) 3 s, storeFrom_writes_cell .y ea 4 s⟩

/-! ## The Step of an instruction with an operand in the instruction stream -/

theorem pc_add_one_add_one (pc : Addr) : pc + 1#16 + 1#16 = pc + 2#16 := BitVec.add_assoc pc 1#16 1#16

theorem step_of_opcode_defined {i : Instr} {s : State} {r : Row} (h : s.mem.read s.pc = some i.opcode)
    (hr : lookupOpcode i.opcode = some r) : step s = runFetched (resolve r.form { s with pc := s.pc + 1#16 }) := by
  rw [step_eq_runFetched, fetchInstr_of_row h hr]

/-- The first operand fetch follows that of the opcode. -/
theorem step_of_operand_undefined {i : Instr} (hi : 2 ≤ i.length) {s : State} (hop : s.mem.read s.pc = some i.opcode)
    (h : s.mem.read (s.pc + 1#16) = none) : step s = .fault (.unmappedAddress (s.pc + 1#16)) := by
  obtain ⟨r, hr, hm, -⟩ := lookupOpcode_opcode i
  have hl : 2 ≤ r.form.mode.length := hm ▸ hi
  have hf : fetchByte { s with pc := s.pc + 1#16 } = .error (.unmappedAddress (s.pc + 1#16)) := fetchByte_none h
  rw [step_of_opcode_defined hop hr]
  cases hform : r.form with
  | implied j => simp [hform, Form.mode, Mode.length] at hl
  | immediate k | zeroPage k => simp [resolve, hf, runFetched]
  | absolute k | indirect k => simp [resolve, fetchWord, hf, runFetched]

/-- The second operand fetch follows that of the low byte. -/
theorem step_of_high_operand_undefined {i : Instr} (hi : i.length = 3) {s : State} {lo : Byte}
    (hop : s.mem.read s.pc = some i.opcode) (hlo : s.mem.read (s.pc + 1#16) = some lo)
    (h : s.mem.read (s.pc + 2#16) = none) : step s = .fault (.unmappedAddress (s.pc + 2#16)) := by
  obtain ⟨r, hr, hm, -⟩ := lookupOpcode_opcode i
  have hl : r.form.mode.length = 3 := hm ▸ hi
  rw [← pc_add_one_add_one] at h ⊢
  have hf : fetchWord { s with pc := s.pc + 1#16 } = .error (.unmappedAddress (s.pc + 1#16 + 1#16)) :=
    fetchWord_eq_error.2 (.inr ⟨lo, hlo, h, rfl⟩)
  rw [step_of_opcode_defined hop hr]
  cases hform : r.form with
  | implied j | immediate k | zeroPage k => simp [hform, Form.mode, Mode.length] at hl
  | absolute k | indirect k => simp [resolve, hf, runFetched]

/-- An instruction encoded as its opcode byte and one operand byte meets the rule of its effect. -/
theorem byteRule_of_exec {op : Byte} {k : Byte → Instr} {effect : Byte → State → Result}
    (hk : ∀ b, encode (k b) = [op, b]) (he : ∀ b s, exec (k b) s = effect b s) : ByteRule op effect := by
  have hop : ∀ b, (k b).opcode = op := fun b => (List.cons.inj (hk b)).1
  have hlen : ∀ b, (k b).length = 2 := fun b => by rw [← encode_length, hk]; rfl
  intro s
  refine ⟨step_of_opcode_undefined, fun h => ?_, fun b h hb => ?_⟩
  · rw [← hop 0] at h
    exact step_of_operand_undefined (hlen 0).ge h
  · have hs : s.mem.holds s.pc (encode (k b)) = true := by simp [hk, h, hb]
    rw [step_of_holds hs, hlen, he]

/-- An instruction encoded as its opcode byte and a 16-bit operand, low byte first, meets the rule of its effect. -/
theorem wordRule_of_exec {op : Byte} {k : Addr → Instr} {effect : Addr → State → Result}
    (hk : ∀ w, encode (k w) = [op, lowByte w, highByte w]) (he : ∀ w s, exec (k w) s = effect w s) :
    WordRule op effect := by
  have hop : ∀ w, (k w).opcode = op := fun w => (List.cons.inj (hk w)).1
  have hlen : ∀ w, (k w).length = 3 := fun w => by rw [← encode_length, hk]; rfl
  intro s
  refine ⟨step_of_opcode_undefined, fun h => ?_, fun lo h hlo => ?_, fun lo hi h hlo hhi => ?_⟩
  · rw [← hop 0] at h
    exact step_of_operand_undefined (Nat.le_of_lt (hlen 0).ge) h
  · rw [← hop 0] at h
    exact step_of_high_operand_undefined (hlen 0) h hlo
  · have hs : s.mem.holds s.pc (encode (k (joinBytes hi lo))) = true := by
      simp [hk, h, hlo, hhi, pc_add_one_add_one]
    rw [step_of_holds hs, hlen, he]
    rfl

/-! ## The effects as the rules write them -/

theorem withRead_eq_readRule {s : State} {ea : Addr} {k : Byte → Result} {effect : Byte → State}
    (h : ∀ v, k v = .next (effect v)) : withRead s ea k = readRule s ea effect := by
  unfold readRule
  cases hv : s.mem.read ea with
  | none => exact withRead_none k hv
  | some v => exact (withRead_some k hv).trans (h v)

theorem decrementCell_eq_readRule (ea : Addr) (n : Nat) (s : State) :
    decrementCell ea n s = readRule s ea fun v =>
      { s with mem := s.mem.write ea (v - 1#8), p := nz s.p (v - 1#8), clk := s.clk + n } :=
  withRead_eq_readRule fun _ => complete_eq_next.2 rfl

/-- The state a load of `v` into `r` completes in. -/
def State.loaded (s : State) (r : Reg) (v : Byte) (n : Nat) : State :=
  { (s.writeReg r v).applyNz v with clk := s.clk + n }

theorem loadInto_imm (r : Reg) (v : Byte) (n : Nat) (s : State) :
    loadInto r (.imm v) n s = .next (s.loaded r v n) := writeRegNz_eq_next.2 rfl

theorem loadInto_cell (r : Reg) (ea : Addr) (n : Nat) (s : State) :
    loadInto r (.cell ea) n s = readRule s ea fun v => s.loaded r v n :=
  withRead_eq_readRule fun _ => writeRegNz_eq_next.2 rfl

/-- Settles O44: LDA immediate is a load, DEC zero page a decrement, JMP absolute sets `pc`. -/
theorem stepRulesOfTheOpcodesTheSourceGives : Obligations.StepRulesOfTheOpcodesTheSourceGives :=
  ⟨byteRule_of_exec (k := .ldaImm) (fun _ => rfl) fun v s => loadInto_imm .a v 2 s,
    byteRule_of_exec (k := .decZp) (fun _ => rfl) fun z s => decrementCell_eq_readRule (zeroPageAddr z) 5 s,
    wordRule_of_exec (k := .jmpAbs) (fun _ => rfl) fun _ _ => complete_eq_next.2 rfl⟩

/-- Settles O46: each is `loadInto` of its register, from the operand or from the cell it addresses. -/
theorem loadStepRules : Obligations.LoadStepRules :=
  ⟨byteRule_of_exec (k := .ldaZp) (fun _ => rfl) fun z s => loadInto_cell .a (zeroPageAddr z) 3 s,
    wordRule_of_exec (k := .ldaAbs) (fun _ => rfl) fun ea s => loadInto_cell .a ea 4 s,
    byteRule_of_exec (k := .ldxImm) (fun _ => rfl) fun v s => loadInto_imm .x v 2 s,
    byteRule_of_exec (k := .ldxZp) (fun _ => rfl) fun z s => loadInto_cell .x (zeroPageAddr z) 3 s,
    wordRule_of_exec (k := .ldxAbs) (fun _ => rfl) fun ea s => loadInto_cell .x ea 4 s,
    byteRule_of_exec (k := .ldyImm) (fun _ => rfl) fun v s => loadInto_imm .y v 2 s,
    byteRule_of_exec (k := .ldyZp) (fun _ => rfl) fun z s => loadInto_cell .y (zeroPageAddr z) 3 s,
    wordRule_of_exec (k := .ldyAbs) (fun _ => rfl) fun ea s => loadInto_cell .y ea 4 s⟩

/-- Settles O47: each is `storeFrom` of its register. -/
theorem storeStepRules : Obligations.StoreStepRules :=
  ⟨byteRule_of_exec (k := .staZp) (fun _ => rfl) fun z s => storeFrom_completes .a (zeroPageAddr z) 3 s,
    wordRule_of_exec (k := .staAbs) (fun _ => rfl) fun ea s => storeFrom_completes .a ea 4 s,
    byteRule_of_exec (k := .stxZp) (fun _ => rfl) fun z s => storeFrom_completes .x (zeroPageAddr z) 3 s,
    wordRule_of_exec (k := .stxAbs) (fun _ => rfl) fun ea s => storeFrom_completes .x ea 4 s,
    byteRule_of_exec (k := .styZp) (fun _ => rfl) fun z s => storeFrom_completes .y (zeroPageAddr z) 3 s,
    wordRule_of_exec (k := .styAbs) (fun _ => rfl) fun ea s => storeFrom_completes .y ea 4 s⟩

end Sys2Proof.Machine

/-! # Proofs of the family 43_transfer: the five transfers that set Zero and Negative, and TXS -/

namespace Sys2Proof.Machine

/-! ## What `writeRegNz` answers: it completes from every state -/

/-- `writeRegNz` is what a load ends in once its operand is at hand. -/
theorem writeRegNz_completes (r : Reg) (v : Byte) (n : Nat) (s : State) :
    writeRegNz r v n s = .next (s.loaded r v n) := writeRegNz_eq_next.2 rfl

/-- The same, with the status byte given by the bits of R26. -/
theorem writeRegNz_replaces (r : Reg) (v : Byte) (n : Nat) (s : State) :
    ∃ p', NzResult s.p v p' ∧ writeRegNz r v n s = .next { s.writeReg r v with p := p', clk := s.clk + n } :=
  loadInto_replaces (o := .imm v) rfl

/-- TXS writes `sp` alone: it has no `writeRegNz`, so `p` stays. -/
theorem execTxs_completes (s : State) : execTxs s = .next { s with sp := s.x, clk := s.clk + 2 } :=
  complete_eq_next.2 rfl

/-- Settles O35: five are `writeRegNz` of the source's value, and TXS is a plain copy. -/
theorem transfersCopyAndSetZeroNegative : Obligations.TransfersCopyAndSetZeroNegative := fun s =>
  ⟨writeRegNz_replaces .x s.a 2 s, writeRegNz_replaces .a s.x 2 s, writeRegNz_replaces .y s.a 2 s,
    writeRegNz_replaces .a s.y 2 s, writeRegNz_replaces .x s.sp 2 s, execTxs_completes s⟩

/-- Settles O48: each is its opcode byte alone, with the effect of O35. -/
theorem transferStepRules : Obligations.TransferStepRules :=
  ⟨impliedRule_of_exec (i := .tax) rfl fun s => writeRegNz_completes .x s.a 2 s,
    impliedRule_of_exec (i := .txa) rfl fun s => writeRegNz_completes .a s.x 2 s,
    impliedRule_of_exec (i := .tay) rfl fun s => writeRegNz_completes .y s.a 2 s,
    impliedRule_of_exec (i := .tya) rfl fun s => writeRegNz_completes .a s.y 2 s,
    impliedRule_of_exec (i := .tsx) rfl fun s => writeRegNz_completes .x s.sp 2 s,
    impliedRule_of_exec (i := .txs) rfl execTxs_completes⟩

end Sys2Proof.Machine

/-! # Proofs of the family 44_inc_dec: the four register increments and decrements, and DEC of a cell -/

namespace Sys2Proof.Machine

/-! ## What they answer, the new value given as a number -/

/-- INX, INY, DEX and DEY are `writeRegNz` of a value known modulo 256. -/
theorem writeRegNz_replaces_by_number (r : Reg) {v : Byte} {m : Nat} (hv : v.toNat = m) (n : Nat) (s : State) :
    ∃ w p', w.toNat = m ∧ NzResult s.p w p' ∧
      writeRegNz r v n s = .next { s.writeReg r w with p := p', clk := s.clk + n } :=
  have ⟨p', hp, hw⟩ := writeRegNz_replaces r v n s
  ⟨v, p', hv, hp, hw⟩

/-- DEC of a defined cell completes: the cell is the only one written, and the flags follow the byte written. -/
theorem decrementCell_replaces_by_number {ea : Addr} {s : State} {v : Byte} (h : s.mem.read ea = some v) (n : Nat) :
    ∃ w m' p', w.toNat = (v.toNat + 255) % 256 ∧ CellWritten s.mem m' ea w ∧ NzResult s.p w p' ∧
      decrementCell ea n s = .next { s with mem := m', p := p', clk := s.clk + n } :=
  ⟨dec8 v, _, _, dec8_toNat v, s.mem.cellWritten_write ea (dec8 v), nz_result s.p (dec8 v),
    decrementCell_eq_next.2 ⟨v, h, rfl⟩⟩

/-- Settles O36: the four are `writeRegNz` of `inc8` or `dec8` of the register. -/
theorem registerIncDecWrapsModulo256 : Obligations.RegisterIncDecWrapsModulo256 := fun s =>
  ⟨writeRegNz_replaces_by_number .x (inc8_toNat s.x) 2 s, writeRegNz_replaces_by_number .y (inc8_toNat s.y) 2 s,
    writeRegNz_replaces_by_number .x (dec8_toNat s.x) 2 s, writeRegNz_replaces_by_number .y (dec8_toNat s.y) 2 s⟩

/-- Settles O37: both are `decrementCell` at the effective address, with the cost of their mode. -/
theorem decDecrementsTheCell : Obligations.DecDecrementsTheCell := fun _ _ _ _ =>
  ⟨fun h => decrementCell_replaces_by_number h 5, fun h => decrementCell_replaces_by_number h 6⟩

/-! ## Their Steps -/

/-- Settles O49: the register forms are their opcode byte alone; DEC absolute is `decrementCell` at its operand. -/
theorem incDecStepRules : Obligations.IncDecStepRules :=
  ⟨impliedRule_of_exec (i := .inx) rfl fun s => writeRegNz_completes .x (inc8 s.x) 2 s,
    impliedRule_of_exec (i := .iny) rfl fun s => writeRegNz_completes .y (inc8 s.y) 2 s,
    impliedRule_of_exec (i := .dex) rfl fun s => writeRegNz_completes .x (dec8 s.x) 2 s,
    impliedRule_of_exec (i := .dey) rfl fun s => writeRegNz_completes .y (dec8 s.y) 2 s,
    wordRule_of_exec (k := .decAbs) (fun _ => rfl) fun ea s => decrementCell_eq_readRule ea 6 s⟩

end Sys2Proof.Machine

/-! # Proofs of the family 45_logical: AND in its three modes -/

namespace Sys2Proof.Machine

/-! ## What AND answers: it is a load of `a` masked by the operand -/

/-- Masking sets no bit that `a` did not have (Q14). -/
theorem and_and_not_left_eq_zero {w : Nat} (a v : BitVec w) : a &&& v &&& ~~~a = 0#w := by
  rw [BitVec.and_comm a v, BitVec.and_assoc, BitVec.and_not_self]
  exact BitVec.and_zero

/-- AND with a defined operand completes in the state a load of the masked value leaves. -/
theorem andInto_completes {o : Operand} {s : State} {v : Byte} (h : o.valueIn s.mem = some v) (n : Nat) :
    andInto o n s = .next (s.loaded .a (s.a &&& v) n) :=
  andInto_eq_next.2 ⟨v, h, rfl⟩

theorem andInto_cell (ea : Addr) (n : Nat) (s : State) :
    andInto (.cell ea) n s = readRule s ea fun v => s.loaded .a (s.a &&& v) n :=
  withRead_eq_readRule fun v => writeRegNz_completes .a (s.a &&& v) n s

/-- Settles O33: the new `a` is `s.a &&& v` and the new `p` its `nz`, in all three modes. -/
theorem andMasksTheAccumulator : Obligations.AndMasksTheAccumulator := fun ea z v s =>
  ⟨s.a &&& v, nz s.p (s.a &&& v), fun _ _ => BitVec.getLsbD_and, and_and_not_left_eq_zero s.a v,
    nz_result s.p (s.a &&& v), andInto_completes (o := .imm v) rfl 2,
    fun h => andInto_completes (o := .cell (zeroPageAddr z)) h 3,
    fun h => andInto_completes (o := .cell ea) h 4⟩

/-! ## Its Steps -/

/-- Settles O50: each is `andInto`, from the operand or from the cell it addresses. -/
theorem andStepRules : Obligations.AndStepRules :=
  ⟨byteRule_of_exec (k := .andImm) (fun _ => rfl) fun v _ => andInto_completes (o := .imm v) rfl 2,
    byteRule_of_exec (k := .andZp) (fun _ => rfl) fun z s => andInto_cell (zeroPageAddr z) 3 s,
    wordRule_of_exec (k := .andAbs) (fun _ => rfl) fun ea s => andInto_cell ea 4 s⟩

end Sys2Proof.Machine

/-! # Proofs of the family 46_stack: the two pushes, the two pulls, and a push followed by its pull -/

namespace Sys2Proof.Machine

/-! ## The byte PHP pushes and the status byte PLP leaves -/

/-- `or10` sets the Break bit (R177). -/
theorem getLsbD_or10 (p : Byte) (k : Nat) : (or10 p).getLsbD k = if k = 4 then true else p.getLsbD k :=
  getLsbD_setFlag p .break_ k

theorem getLsbD_mergePulled (p m : Byte) {k : Nat} (hk : k < 8) :
    (mergePulled p m).getLsbD k = if k = 4 ∨ k = 5 then p.getLsbD k else m.getLsbD k := by
  interval_cases k <;> simp [mergePulled]

/-- The one bit `or10` changes is a bit the merge takes from `p`. -/
theorem mergePulled_or10 (p : Byte) : mergePulled p (or10 p) = p := by
  refine BitVec.eq_of_getLsbD_eq fun k hk => ?_
  rw [getLsbD_mergePulled p _ hk, getLsbD_or10]
  by_cases h : k = 4 <;> simp [h]

/-! ## What a push answers -/

theorem push_writes_cell (v : Byte) (n : Nat) (s : State) :
    ∃ m' sp', CellWritten s.mem m' (stackAddr s.sp) v ∧ sp'.toNat = (s.sp.toNat + 255) % 256 ∧
      push v n s = .next { s with mem := m', sp := sp', clk := s.clk + n } :=
  ⟨_, dec8 s.sp, s.mem.cellWritten_write (stackAddr s.sp) v, dec8_toNat s.sp, push_eq_pushed s v n⟩

/-- Settles O39: both are `push`, which completes from every state; PHP pushes `or10 s.p`. -/
theorem pushesWriteThenDecrement : Obligations.PushesWriteThenDecrement := fun s =>
  have ⟨m', sp', hm, hsp, hphp⟩ := push_writes_cell (or10 s.p) 3 s
  ⟨push_writes_cell s.a 3 s, m', sp', or10 s.p, hm, hsp, fun k _ => getLsbD_or10 s.p k, hphp⟩

/-! ## What a pull answers -/

theorem pull_of_undefined {s : State} (k : Byte → State → Result) (h : s.mem.read (stackAddr (inc8 s.sp)) = none) :
    pull s k = .fault (.unmappedAddress (stackAddr (inc8 s.sp))) :=
  withRead_none (s := s.setSp (inc8 s.sp)) _ h

theorem execPla_of_undefined {s : State} (h : s.mem.read (stackAddr (inc8 s.sp)) = none) :
    execPla s = .fault (.unmappedAddress (stackAddr (inc8 s.sp))) := pull_of_undefined _ h

theorem execPlp_of_undefined {s : State} (h : s.mem.read (stackAddr (inc8 s.sp)) = none) :
    execPlp s = .fault (.unmappedAddress (stackAddr (inc8 s.sp))) := pull_of_undefined _ h

/-- Settles O40: the pulled cell is the one at `inc8 s.sp`; PLA ends in `writeRegNz`, PLP in the merge. -/
theorem pullsIncrementThenRead : Obligations.PullsIncrementThenRead := by
  intro s sp1 hsp
  obtain rfl : sp1 = inc8 s.sp := BitVec.eq_of_toNat_eq (hsp.trans (inc8_toNat s.sp).symm)
  refine ⟨fun v hv => ⟨?_, ?_⟩, fun hu => ⟨execPla_of_undefined hu, execPlp_of_undefined hu⟩⟩
  · obtain ⟨p', hp, hw⟩ := writeRegNz_replaces .a v 4 (s.setSp (inc8 s.sp))
    exact ⟨p', hp, (execPla_of_read hv).trans hw⟩
  · exact ⟨mergePulled s.p v, fun k hk => getLsbD_mergePulled s.p v hk, execPlp_of_read hv⟩

/-! ## A push and then its pull -/

@[simp] theorem inc8_dec8 (b : Byte) : inc8 (dec8 b) = b := BitVec.sub_add_cancel b 1#8

/-- A pull after a push reads the cell the push wrote. -/
theorem pushed_read_pulled (s : State) (v : Byte) (n : Nat) :
    (s.pushed v n).mem.read (stackAddr (inc8 (s.pushed v n).sp)) = some v := by
  have hsp : inc8 (s.pushed v n).sp = s.sp := inc8_dec8 s.sp
  rw [hsp]
  exact pushed_read s v n

/-- Settles O41: the pull reads the pushed byte back, and `inc8` undoes `dec8` on `sp`. -/
theorem pushThenPullRestores : Obligations.PushThenPullRestores := by
  refine fun s => ⟨?_, ?_⟩
  · have hpla := (execPla_of_read (pushed_read_pulled s s.a 3)).trans (writeRegNz_completes .a s.a 4 _)
    exact ⟨_, _, push_eq_pushed s s.a 3, hpla, rfl, inc8_dec8 s.sp, pushed_read s s.a 3, nz_result s.p s.a⟩
  · have hplp := execPlp_of_read (pushed_read_pulled s (or10 s.p) 3)
    exact ⟨_, _, push_eq_pushed s (or10 s.p) 3, hplp, mergePulled_or10 s.p, inc8_dec8 s.sp,
      pushed_read s (or10 s.p) 3⟩

/-! ## Their Steps -/

/-- A pull whose continuation completes is a data read at the incremented `sp`. -/
theorem pull_eq_readRule {s : State} {k : Byte → State → Result} {effect : Byte → State}
    (h : ∀ v, k v (s.setSp (inc8 s.sp)) = .next (effect v)) :
    pull s k = readRule s (stackAddr (inc8 s.sp)) effect :=
  withRead_eq_readRule (s := s.setSp (inc8 s.sp)) h

theorem execPla_eq_readRule (s : State) :
    execPla s = readRule s (stackAddr (inc8 s.sp)) fun v => (s.setSp (inc8 s.sp)).loaded .a v 4 :=
  pull_eq_readRule fun v => writeRegNz_completes .a v 4 _

theorem execPlp_eq_readRule (s : State) :
    execPlp s = readRule s (stackAddr (inc8 s.sp)) fun m =>
      { s with sp := inc8 s.sp, p := mergePulled s.p m, clk := s.clk + 4 } :=
  pull_eq_readRule fun _ => complete_eq_next.2 rfl

/-- Settles O51: each is its opcode byte alone, with the effect of its `push` or `pull`. -/
theorem stackStepRules : Obligations.StackStepRules :=
  ⟨impliedRule_of_exec (i := .pha) rfl fun s => push_eq_pushed s s.a 3,
    impliedRule_of_exec (i := .php) rfl fun s => push_eq_pushed s (or10 s.p) 3,
    impliedRule_of_exec (i := .pla) rfl execPla_eq_readRule,
    impliedRule_of_exec (i := .plp) rfl execPlp_eq_readRule⟩

end Sys2Proof.Machine

/-! # Proofs of the family 47_nop_jump: NOP, and JMP through its operand and through a pointer -/

namespace Sys2Proof.Machine

/-! ## NOP and JMP absolute: they complete from every state -/

theorem execNop_completes (s : State) : execNop s = .next { s with clk := s.clk + 2 } := complete_eq_next.2 rfl

theorem execJmpAbs_completes (ea : Addr) (s : State) :
    execJmpAbs ea s = .next { s with pc := ea, clk := s.clk + 3 } := complete_eq_next.2 rfl

/-- Settles O42: neither reads memory. -/
theorem nopAndAbsoluteJumpComplete : Obligations.NopAndAbsoluteJumpComplete := fun ea s =>
  ⟨execNop_completes s, execJmpAbs_completes ea s⟩

/-! ## The address of the high target byte, in the form of Q5 -/

theorem and_lowMask (w : Addr) : w &&& 0x00FF#16 = joinBytes 0x00#8 (lowByte w) :=
  calc w &&& 0x00FF#16
    _ = joinBytes (highByte w) (lowByte w) &&& joinBytes 0x00#8 0xFF#8 := by rw [joinBytes_high_low]; rfl
    _ = joinBytes (highByte w &&& 0x00#8) (lowByte w &&& 0xFF#8) := BitVec.and_append
    _ = joinBytes 0x00#8 (lowByte w) := congrArg₂ joinBytes BitVec.and_zero BitVec.and_allOnes

theorem and_highMask (w : Addr) : w &&& 0xFF00#16 = joinBytes (highByte w) 0x00#8 :=
  calc w &&& 0xFF00#16
    _ = joinBytes (highByte w) (lowByte w) &&& joinBytes 0xFF#8 0x00#8 := by rw [joinBytes_high_low]; rfl
    _ = joinBytes (highByte w &&& 0xFF#8) (lowByte w &&& 0x00#8) := BitVec.and_append
    _ = joinBytes (highByte w) 0x00#8 := congrArg₂ joinBytes BitVec.and_allOnes BitVec.and_zero

theorem and_lowMask_eq_iff (w : Addr) : w &&& 0x00FF#16 = 0x00FF#16 ↔ (lowByte w).toNat = 255 := by
  rw [and_lowMask, ← BitVec.toNat_inj, joinBytes_toNat]
  simp

/-- At the end of a page the increment of the low byte wraps; elsewhere it is that of the whole address. -/
theorem pointerHighAddr_eq_ite (ptr : Addr) :
    pointerHighAddr ptr = if ptr &&& 0x00FF#16 = 0x00FF#16 then ptr &&& 0xFF00#16 else ptr + 1#16 := by
  apply BitVec.eq_of_toNat_eq
  have hptr : ptr.toNat < 65536 := ptr.isLt
  split
  case isTrue h =>
    have hlow := (and_lowMask_eq_iff ptr).1 h
    simp only [and_highMask, pointerHighAddr_toNat, joinBytes_toNat, highByte_toNat, lowByte_toNat,
      BitVec.toNat_ofNat] at hlow ⊢
    omega
  case isFalse h =>
    have hlow := mt (and_lowMask_eq_iff ptr).2 h
    simp only [pointerHighAddr_toNat, lowByte_toNat, BitVec.toNat_add, BitVec.toNat_ofNat] at hlow ⊢
    omega

/-! ## JMP indirect, by what the pointer cell holds -/

theorem execJmpInd_of_low_undefined {ptr : Addr} {s : State} (h : s.mem.read ptr = none) :
    execJmpInd ptr s = .fault (.unmappedAddress ptr) := withRead_none _ h

/-- With the low target byte at hand, what is left is the data read of the high one. -/
theorem execJmpInd_of_low {ptr : Addr} {s : State} {lo : Byte} (h : s.mem.read ptr = some lo) :
    execJmpInd ptr s =
      readRule s (pointerHighAddr ptr) fun hi => { s with pc := joinBytes hi lo, clk := s.clk + 5 } :=
  (withRead_some _ h).trans (withRead_eq_readRule fun _ => complete_eq_next.2 rfl)

theorem readRule_some {s : State} {ea : Addr} {v : Byte} (effect : Byte → State) (h : s.mem.read ea = some v) :
    readRule s ea effect = .next (effect v) := by
  simp [readRule, h]

theorem readRule_none {s : State} {ea : Addr} (effect : Byte → State) (h : s.mem.read ea = none) :
    readRule s ea effect = .fault (.unmappedAddress ea) := by
  simp [readRule, h]

/-- Settles O43: Q5's address of the high byte is `pointerHighAddr`, read after the low byte. -/
theorem indirectJumpWrapsInsideThePage : Obligations.IndirectJumpWrapsInsideThePage := by
  intro ptr s q hq
  obtain rfl : q = pointerHighAddr ptr := hq.trans (pointerHighAddr_eq_ite ptr).symm
  refine ⟨fun lo hi hlo hhi => ?_, execJmpInd_of_low_undefined, fun lo hlo hhi => ?_⟩
  · exact ⟨joinBytes hi lo, joinBytes_toNat hi lo, (execJmpInd_of_low hlo).trans (readRule_some _ hhi)⟩
  · exact (execJmpInd_of_low hlo).trans (readRule_none _ hhi)

/-! ## Their Steps -/

/-- Settles O52: NOP is its opcode byte alone; JMP indirect splits on the cell at its pointer. -/
theorem nopAndJumpStepRules : Obligations.NopAndJumpStepRules := by
  refine ⟨impliedRule_of_exec (i := .nop) rfl execNop_completes,
    wordRule_of_exec (k := .jmpInd) (fun _ => rfl) fun ptr s => ?_⟩
  cases h : s.mem.read ptr with
  | none => exact execJmpInd_of_low_undefined h
  | some lo => exact execJmpInd_of_low h

end Sys2Proof.Machine

/-! # Proofs of the family 60_exceptions: the answers of a Step, and where each fault comes from -/

namespace Sys2Proof.Machine

/-! ## The faults of a Step -/

/-- Inversion of a Step that faults: an unmapped cell, or the byte at `pc` has no row (R200). -/
theorem step_fault {s : State} {f : Fault} (h : step s = .fault f) :
    (∃ ea, f = .unmappedAddress ea) ∨
      ∃ b, s.mem.read s.pc = some b ∧ lookupOpcode b = none ∧ f = .illegalOpcode b s.pc := by
  rcases step_cases s with ⟨i, -, hs⟩ | ⟨g, hg, hs⟩
  · obtain ⟨ea, hf, -⟩ := exec_fault (hs.symm.trans h)
    exact .inl ⟨ea, hf⟩
  · obtain rfl : g = f := Host.Outcome.fault.inj (hs.symm.trans h)
    rcases fetchInstr_error hg with ⟨-, hf⟩ | hb | ⟨_, _, -, -, -, -, hf⟩ | ⟨_, _, _, -, -, -, -, -, hf⟩
    · exact .inl ⟨_, hf⟩
    · exact .inr hb
    · exact .inl ⟨_, hf⟩
    · exact .inl ⟨_, hf⟩

theorem step_of_no_row {s : State} {b : Byte} (h : s.mem.read s.pc = some b) (hr : lookupOpcode b = none) :
    step s = .fault (.illegalOpcode b s.pc) := by
  simp [step, fetchInstr, fetchByte_some h, hr]

theorem stepAccesses_of_no_row {s : State} {b : Byte} (h : s.mem.read s.pc = some b) (hr : lookupOpcode b = none) :
    stepAccesses s = [.read s.pc] := by
  simp [stepAccesses, readThen, h, hr]

/-- Settles O6: a byte that is the opcode of no instruction has no row, and only such a byte raises the fault. -/
theorem illegalOpcodeFaultsWithItsByteAndAddress : Obligations.IllegalOpcodeFaultsWithItsByteAndAddress := by
  intro s b
  constructor
  · intro h hb
    have hr := lookupOpcode_eq_none.2 hb
    have hs := step_of_no_row h hr
    exact ⟨hs, stepAccesses_of_no_row h hr, stepTransaction_of_fault hs⟩
  · intro q h
    rcases step_fault h with ⟨_, hf⟩ | ⟨c, hc, hr, hf⟩
    · cases hf
    · obtain ⟨rfl, rfl⟩ := Fault.illegalOpcode.inj hf
      exact ⟨rfl, hc, lookupOpcode_eq_none.1 hr⟩

/-- Settles O9: a Step never refuses, and its faults are the two of `step_fault`. -/
theorem stepHasOnlyTheThreeAnswers : Obligations.StepHasOnlyTheThreeAnswers := by
  intro s
  cases h : step s with
  | next t => exact .inl ⟨t, rfl⟩
  | fault f =>
    rcases step_fault h with ⟨ea, rfl⟩ | ⟨b, -, -, rfl⟩
    · exact .inr (.inl ⟨ea, rfl⟩)
    · exact .inr (.inr ⟨b, rfl⟩)
  | refused r => exact absurd h (step_ne_refused s r)

/-- Settles O38: each of the ten begins with the read of its operand's cell. -/
theorem memoryOperandsFaultOnAnUndefinedCell : Obligations.MemoryOperandsFaultOnAnUndefinedCell := by
  intro z ea s
  constructor
  · intro h i hi
    simp only [List.mem_cons, List.not_mem_nil, or_false] at hi
    rcases hi with rfl | rfl | rfl | rfl | rfl <;> exact withRead_none _ h
  · intro h i hi
    simp only [List.mem_cons, List.not_mem_nil, or_false] at hi
    rcases hi with rfl | rfl | rfl | rfl | rfl <;> exact withRead_none _ h

end Sys2Proof.Machine

/-! # Proofs of the family 70_reset_and_hazards: the launch, the cycle cost of a Step and the host's run loop -/

namespace Sys2Proof

/-! ## The launch record -/

theorem Backing.unlisted_eq_ite (b : Backing) : b.unlisted = if b = .dense then some 0x00#8 else none := by
  cases b <;> rfl

theorem Launch.wellFormed_iff {l : Launch} : l.wellFormed = true ↔ ∀ c ∈ l.ram, c.1 < 65536 :=
  List.all_eq_true.trans (forall₂_congr fun _ _ => decide_eq_true_iff)

end Sys2Proof

namespace Sys2Proof.Machine

/-! ## The launch -/

/-- The writes that seed memory with the pairs of `ram`, in list order (R231). -/
def seedWrites (ram : List Host.Cell) : List Access := ram.map fun c => .write (BitVec.ofNat 16 c.1) c.2

/-- Seeding changes memory alone, by its writes. -/
theorem seedCells_eq_setMem (s : State) (ram : List Host.Cell) :
    seedCells s ram = s.setMem (s.mem.replay (seedWrites ram)) := by
  induction ram generalizing s with
  | nil => rfl
  | cons c rest ih => exact ih _

theorem eq_ofNat_iff_of_lt {k : Nat} (hk : k < 65536) (ea : Addr) : ea = BitVec.ofNat 16 k ↔ k = ea.toNat := by
  rw [← BitVec.toNat_inj, BitVec.toNat_ofNat, Nat.mod_eq_of_lt hk, eq_comm]

/-- A seeded address reads as the last pair that names it, any other as before (D4). -/
theorem Memory.read_replay_seedWrites (m : Memory) {ram : List Host.Cell} (h : ∀ c ∈ ram, c.1 < 65536) (ea : Addr) :
    (m.replay (seedWrites ram)).read ea =
      ((ram.reverse.find? fun c => decide (c.1 = ea.toNat)).map Prod.snd).or (m.read ea) := by
  induction ram generalizing m with
  | nil => rfl
  | cons c rest ih =>
    obtain ⟨hc, hrest⟩ := List.forall_mem_cons.1 h
    have hread : (m.write (BitVec.ofNat 16 c.1) c.2).read ea = if c.1 = ea.toNat then some c.2 else m.read ea := by
      simp only [Memory.read_write, eq_ofNat_iff_of_lt hc]
    refine (ih _ hrest).trans ?_
    rw [hread, List.reverse_cons, List.find?_append]
    cases rest.reverse.find? fun c => decide (c.1 = ea.toNat) with
    | some d => rfl
    | none => by_cases hk : c.1 = ea.toNat <;> simp [hk]

theorem launch_of_wellFormed {l : Launch} (h : l.wellFormed = true) :
    launch l = some ((State.fresh l.regs l.backing).setMem
      ((State.fresh l.regs l.backing).mem.replay (seedWrites l.ram))) := by
  simp only [launch, h, if_true, seedCells_eq_setMem]

theorem launch_eq_none {l : Launch} : launch l = none ↔ ¬ l.wellFormed = true := by
  simp [launch]

/-- Settles O17: the launched state is the fresh one with the seeding writes replayed. -/
theorem launchSetsTheWholeState : Obligations.LaunchSetsTheWholeState := by
  intro l
  constructor
  · intro h
    refine ⟨_, launch_of_wellFormed (Launch.wellFormed_iff.2 h), rfl, rfl, rfl, rfl, rfl, rfl, rfl,
      Memory.replay_backing _ _, Memory.wf_replay _ rfl, fun ea => ?_⟩
    refine (Memory.read_replay_seedWrites _ h ea).trans ?_
    cases l.ram.reverse.find? fun c => decide (c.1 = ea.toNat) with
    | some c => rfl
    | none => exact l.backing.unlisted_eq_ite
  · rintro ⟨c, hc, hk⟩
    refine launch_eq_none.2 fun hw => ?_
    exact Nat.not_lt.2 hk (Launch.wellFormed_iff.1 hw c hc)

/-! ## The cost of an instruction -/

/-- If the answer `r` to `s` is a next state, its `clk` is that of `s` plus `n`. -/
def Charges (n : Nat) (s : State) (r : Result) : Prop := ∀ t, r = .next t → t.clk = s.clk + n

theorem complete_charges (n : Nat) {s s1 : State} (h : s1.clk = s.clk) : Charges n s (complete n s1) := by
  intro t ht
  obtain rfl := complete_eq_next.1 ht
  exact congrArg (· + n) h

theorem withRead_charges {n : Nat} {s s1 : State} {ea : Addr} {k : Byte → Result} (h : ∀ v, Charges n s (k v)) :
    Charges n s (withRead s1 ea k) := by
  intro t ht
  obtain ⟨v, -, hv⟩ := withRead_eq_next.1 ht
  exact h v t hv

theorem writeRegNz_charges (r : Reg) (v : Byte) (n : Nat) {s s1 : State} (h : s1.clk = s.clk) :
    Charges n s (writeRegNz r v n s1) :=
  complete_charges n ((s1.writeReg_clk r v).trans h)

/-- An instruction that completes charges its cost in the table of R239. -/
theorem exec_charges (i : Instr) (s : State) : Charges (costOf i) s (exec i s) := by
  cases i with
  | clc | sec | cli | sei | clv | cld | sed | staZp | staAbs | stxZp | stxAbs | styZp | styAbs | txs | pha | php | nop
  | jmpAbs =>
    exact complete_charges _ rfl
  | ldaImm | ldxImm | ldyImm | andImm | tax | txa | tay | tya | tsx | inx | iny | dex | dey =>
    exact writeRegNz_charges _ _ _ rfl
  | ldaZp | ldaAbs | ldxZp | ldxAbs | ldyZp | ldyAbs | andZp | andAbs | pla =>
    exact withRead_charges fun _ => writeRegNz_charges _ _ _ rfl
  | decZp | decAbs | plp => exact withRead_charges fun _ => complete_charges _ rfl
  | jmpInd => exact withRead_charges fun _ => withRead_charges fun _ => complete_charges _ rfl

/-- The catalog holds the cost of the table. -/
theorem lookupOpcode_cycles (i : Instr) : ∃ r, lookupOpcode i.opcode = some r ∧ r.cycles = costOf i := by
  cases i <;> exact ⟨_, rfl, rfl⟩

/-- Settles O26: the Step is the effect of the encoded instruction, which charges its cost. -/
theorem completedStepChargesTheTableCost : Obligations.CompletedStepChargesTheTableCost := by
  refine ⟨lookupOpcode_cycles, fun i s t hi h => ?_⟩
  rw [step_of_holds hi] at h
  have hc := exec_charges i _ t h
  exact hc

/-! ## The run loop -/

section
variable {stop : Option Addr}

/-- No state that fewer than `k` Steps from `s` reach has its `pc` at the stop address. -/
def NoStopBefore (stop : Option Addr) (k : Nat) (s : State) : Prop :=
  ∀ j < k, ∀ u : State, Sys2Proof.core.run j s = .next u → stop ≠ some u.pc

theorem noStopBefore_zero (s : State) : NoStopBefore stop 0 s := fun _ hj => absurd hj (Nat.not_lt_zero _)

/-- One more Step at the front. -/
theorem NoStopBefore.step {k : Nat} {s u : State} (h : NoStopBefore stop k u) (hs : stop ≠ some s.pc)
    (hu : step s = .next u) : NoStopBefore stop (k + 1) s := by
  intro j hj w hw
  cases j with
  | zero =>
    obtain rfl := Host.Outcome.next.inj hw
    exact hs
  | succ j =>
    rw [core_run_succ_of_next j hu] at hw
    exact h j (Nat.lt_of_succ_lt_succ hj) w hw

/-- The state that `k` Steps reach may be included. -/
theorem NoStopBefore.forall_le {k : Nat} {s t : State} (h : NoStopBefore stop k s)
    (ht : Sys2Proof.core.run k s = .next t) (hs : stop ≠ some t.pc) :
    ∀ j ≤ k, ∀ u : State, Sys2Proof.core.run j s = .next u → stop ≠ some u.pc := by
  intro j hj u hu
  rcases Nat.lt_or_eq_of_le hj with hlt | rfl
  · exact h j hlt u hu
  · obtain rfl := Host.Outcome.next.inj (ht.symm.trans hu)
    exact hs

/-- With `m` Steps of the budget left the run loop goes no further from `t`, and its answer is `e`. -/
inductive HaltsAt (stop : Option Addr) (t : State) : Nat → RunEnd → Prop
  | budget : HaltsAt stop t 0 .budgetSpent
  | reached {m : Nat} (h : stop = some t.pc) : HaltsAt stop t (m + 1) .reachedPc
  | fault {m : Nat} {f : Fault} (h : stop ≠ some t.pc) (hf : step t = .fault f) : HaltsAt stop t (m + 1) (.faulted f)

theorem runUntil_succ_of_stop {s : State} (n : Nat) (h : stop = some s.pc) :
    runUntil stop (n + 1) s = (.reachedPc, s) := if_pos h

theorem runUntil_succ_of_next {s u : State} (n : Nat) (h : stop ≠ some s.pc) (hu : step s = .next u) :
    runUntil stop (n + 1) s = runUntil stop n u := by
  simp only [runUntil, h, if_false, hu]

theorem runUntil_succ_of_fault {s : State} {f : Fault} (n : Nat) (h : stop ≠ some s.pc) (hf : step s = .fault f) :
    runUntil stop (n + 1) s = (.faulted f, s) := by
  simp only [runUntil, h, if_false, hf]

/-- Inversion of the run loop: some `k` Steps, none from a state at the stop address, lead to the state in which it
halts with what is left of the budget. -/
theorem runUntil_cases {n : Nat} {s t : State} {e : RunEnd} (h : runUntil stop n s = (e, t)) :
    ∃ k m, k + m = n ∧ Sys2Proof.core.run k s = .next t ∧ NoStopBefore stop k s ∧ HaltsAt stop t m e := by
  induction n generalizing s with
  | zero =>
    obtain ⟨rfl, rfl⟩ := Prod.mk.inj h
    exact ⟨0, 0, rfl, core_run_zero _, noStopBefore_zero _, .budget⟩
  | succ n ih =>
    by_cases hs : stop = some s.pc
    · rw [runUntil_succ_of_stop n hs] at h
      obtain ⟨rfl, rfl⟩ := Prod.mk.inj h
      exact ⟨0, n + 1, Nat.zero_add _, core_run_zero _, noStopBefore_zero _, .reached hs⟩
    · cases hst : step s with
      | next u =>
        rw [runUntil_succ_of_next n hs hst] at h
        obtain ⟨k, m, hn, hrun, hno, hend⟩ := ih h
        exact ⟨k + 1, m, by omega, (core_run_succ_of_next k hst).trans hrun, hno.step hs hst, hend⟩
      | fault f =>
        rw [runUntil_succ_of_fault n hs hst] at h
        obtain ⟨rfl, rfl⟩ := Prod.mk.inj h
        exact ⟨0, n + 1, Nat.zero_add _, core_run_zero _, noStopBefore_zero _, .fault hs hst⟩
      | refused r => exact absurd hst (step_ne_refused s r)

end

/-- Settles O53: each clause is `runUntil_cases` at one end of the run. -/
theorem hostRunStopsAsItsPolicySays : Obligations.HostRunStopsAsItsPolicySays := by
  intro stop n s t
  refine ⟨fun h => ?_, fun f h => ?_, fun h => ?_, fun r h => ?_⟩
  · obtain ⟨k, m, rfl, hrun, hno, hend⟩ := runUntil_cases h
    cases hend with
    | budget => exact ⟨hrun, hno⟩
  · obtain ⟨k, m, rfl, hrun, hno, hend⟩ := runUntil_cases h
    cases hend with
    | fault hs hf => exact ⟨hf, k, by omega, hrun, hno.forall_le hrun hs⟩
  · obtain ⟨k, m, rfl, hrun, hno, hend⟩ := runUntil_cases h
    cases hend with
    | reached hs => exact ⟨hs, k, by omega, hrun, hno⟩
  · obtain ⟨_, _, -, -, -, hend⟩ := runUntil_cases h
    cases hend

end Sys2Proof.Machine
